-- ==== Sys2Proof/Word.lean ====
section
/-! DEFINITION. The word types of PCODEC (rules R13, R16): every value is unsigned and has one stated width. -/

namespace Sys2Proof

/-- `u8`: one element of the IN and OUT streams, a checksum value (R16). -/
abbrev Byte := BitVec 8

/-- `u16`: a checksum field, a length, a transfer counter (R16, R28). -/
abbrev Half := BitVec 16

/-- `u32`: a sequence number (R16, R22). -/
abbrev Seq := BitVec 32

end Sys2Proof
end

