-- ==== Sys2Proof/Syntax.lean ====
section
/-! DEFINITION. The operations, the words that cross the channels, and the Packet value, as plain data.
Bit positions are in Decode.lean. -/

namespace Sys2Proof

/-- The four operations of PCODEC (R2), named by their 2-bit codes (R88). -/
inductive Op where
  | enc
  | dec
  | csum
  | vfy
  deriving DecidableEq, Repr

/-- The fields of the 66-bit command word (R90). -/
structure Command where
  op   : Op
  seq  : Seq
  csum : Half
  len  : Half
  deriving DecidableEq, Repr

/-- The rows of `opcode_table.json`. The four operations carry every operand field of their command word, the
ignored ones too (R91). `frame` is the table's fifth row: the 64-bit frame header of R80, which R95 says is not an
operation. -/
inductive Instr where
  | enc   (seq : Seq) (csum len : Half)
  | dec   (seq : Seq) (csum len : Half)
  | csum  (seq : Seq) (csum len : Half)
  | vfy   (seq : Seq) (csum len : Half)
  | frame (csum len : Half) (seq : Seq)
  deriving DecidableEq, Repr

/-- What the host presents where the engine samples its next command: a 66-bit command word (R56, R90), or a word of
the table's FRAME row, which is no command word and which the model refuses by name (DESIGN CHOICE, log 12). -/
inductive Offer where
  | command (w : BitVec 66)
  | header  (h : BitVec 64)
  deriving DecidableEq, Repr

/-- The outcome codes of a result word (R93). -/
inductive Status where
  | ok
  | eShort
  | eLength
  | ePayload
  deriving DecidableEq, Repr

/-- The errors an operation raises (R181). A checksum mismatch is not one of them (R183). -/
inductive OpError where
  | short
  | length
  | payload
  deriving DecidableEq, Repr

/-- The fields of the 69-bit result word (R92). -/
structure Result where
  ok     : Bool
  op     : Op
  status : Status
  seq    : Seq
  csum   : Half
  len    : Half
  deriving DecidableEq, Repr

/-- A Packet (R21 to R27): a value, never a register. `checksum` is all 16 bits of the field (R23). -/
structure Packet where
  sequenceNumber : Seq
  checksum       : Half
  totalLength    : Half
  payload        : List Byte
  deriving DecidableEq, Repr

/-- One step of the transfer level (R34), with the word it carries. -/
inductive Transfer where
  | cmd (c : Command)
  | inp (d : Byte)
  | out (b : Byte) (last : Bool)
  | res (r : Result)
  | rst
  deriving DecidableEq, Repr

/-- What the host and the platform can do between two steps (R226): offer a command word or an input byte, take back the
input bytes left over at a reset (the duty of R212), become ready or not for output bytes and for results, and plan a
reset after a number of channel transfers (R210). They can do nothing else to the engine.
In particular no move withdraws or changes any other word offered (R57, U4; log 15). -/
inductive HostMove where
  | offer (w : BitVec 66)
  | supply (d : Byte)
  | withdrawInput
  | takeOut (ready : Bool)
  | takeRes (ready : Bool)
  | planReset (n : Nat)
  deriving DecidableEq, Repr

/-- One event of an open run: the machine steps, or the host moves. -/
inductive RunEvent where
  | step
  | host (m : HostMove)
  deriving DecidableEq, Repr

/-- One line of a transcript (R96), with the pseudo-operations of R97. The number of input bytes is not written, nor is an
ignored field. -/
inductive Line where
  | enc  (seq : Seq) (input : List Byte)
  | dec  (input : List Byte)
  | csum (seq : Seq) (input : List Byte)
  | vfy  (seq : Seq) (field : Half) (input : List Byte)
  | ack  (seq : Seq)
  | data (seq : Seq) (input : List Byte)
  deriving DecidableEq, Repr

/-- The operation a command word selects, as an instruction. -/
def Command.toInstr (c : Command) : Instr :=
  match c.op with
  | .enc => .enc c.seq c.csum c.len
  | .dec => .dec c.seq c.csum c.len
  | .csum => .csum c.seq c.csum c.len
  | .vfy => .vfy c.seq c.csum c.len

/-- The command of an instruction: none for a frame header, which is no operation (R95). -/
def Instr.command? : Instr → Option Command
  | .enc q c n => some ⟨.enc, q, c, n⟩
  | .dec q c n => some ⟨.dec, q, c, n⟩
  | .csum q c n => some ⟨.csum, q, c, n⟩
  | .vfy q c n => some ⟨.vfy, q, c, n⟩
  | .frame _ _ _ => none

end Sys2Proof
end

