-- ==== Sys2Proof/WellFormed.lean ====
section
/-! DEFINITION. Which terms of `Instr` the spec admits. -/

namespace Sys2Proof

/-- Every command word is legal (R89), and a field of the exact width cannot be out of range, so the four operations
have no ill-formed term. A frame header is ill-formed when its total length is below 8: the field is
`8 + |payload|` of some payload (R25), and "a frame cannot be shorter than its header" (R87). DEDUCED, log 24. -/
def Instr.wellFormed : Instr → Bool
  | .enc _ _ _ => true
  | .dec _ _ _ => true
  | .csum _ _ _ => true
  | .vfy _ _ _ => true
  | .frame _ len _ => decide (8 ≤ len.toNat)

end Sys2Proof
end

