-- ==== Sys2Proof/Decode.lean ====
section
/-! DEFINITION. The decoder of command words and frame headers, then the encoders, all from the bit tables of
30_encoding.md. -/

namespace Sys2Proof

/-- The operation of a 2-bit code (R88). All four codes are used (R89). -/
def opOfCode (b : BitVec 2) : Op :=
  if b = 0b00#2 then .enc else if b = 0b01#2 then .dec else if b = 0b10#2 then .csum else .vfy

/-- The fields of a 66-bit command word (R90): op 65:64, seq 63:32, csum 31:16, len 15:0. -/
def decodeCommand (w : BitVec 66) : Command :=
  { op := opOfCode (w.extractLsb' 64 2)
    seq := w.extractLsb' 32 32
    csum := w.extractLsb' 16 16
    len := w.extractLsb' 0 16 }

/-- The fields of a frame header seen as the 64-bit big-endian word `H` (R80): checksum field 63:48, total length
47:32, sequence number 31:0. -/
def decodeHeader (h : BitVec 64) : Instr :=
  .frame (h.extractLsb' 48 16) (h.extractLsb' 32 16) (h.extractLsb' 0 32)

/-- The decoder: total, and it never answers "invalid" on a command word (R89). -/
def decodeOffer : Offer → Instr
  | .command w => (decodeCommand w).toInstr
  | .header h => decodeHeader h

/-- Why a number is no word of the opcode table. -/
inductive DecodeError where
  /-- A command-word row with a one above bit 65: the command word has 66 bits (R90). Safe: nothing runs. -/
  | bitsBeyondCommandWord
  /-- The frame-header row with a one above bit 63: the header has 64 bits (R80). Safe: nothing runs. -/
  | bitsBeyondHeader
  deriving DecidableEq, Repr

/-- The table word of `nbits` bits and value `w`: the FRAME row is the one 64 bits wide (R95), every other row is a
command word (DEDUCED, log 13). -/
def readTableWord (nbits w : Nat) : Except DecodeError Offer :=
  if nbits = 64 then
    if w < 2 ^ 64 then .ok (.header (BitVec.ofNat 64 w)) else .error .bitsBeyondHeader
  else
    if w < 2 ^ 66 then .ok (.command (BitVec.ofNat 66 w)) else .error .bitsBeyondCommandWord

/-- The instruction the decoder reads from a word of the opcode table, numbered as the table numbers it. -/
def decodeTableWord (nbits w : Nat) : Option Instr :=
  match readTableWord nbits w with
  | .ok o => some (decodeOffer o)
  | .error _ => none

/-! ### Encoders -/

/-- The 2-bit code of an operation (R88). -/
def opCode : Op → BitVec 2
  | .enc => 0b00#2
  | .dec => 0b01#2
  | .csum => 0b10#2
  | .vfy => 0b11#2

/-- The 66-bit command word `op ++ seq ++ csum ++ len` (R90, R96). -/
def encodeCommand (c : Command) : BitVec 66 := opCode c.op ++ c.seq ++ c.csum ++ c.len

/-- The 64-bit header word (R80): checksum field, total length, sequence number. -/
def encodeHeader (csum len : Half) (seq : Seq) : BitVec 64 := csum ++ len ++ seq

/-- The word of an instruction. -/
def encode : Instr → Offer
  | .enc seq csum len => .command (encodeCommand ⟨.enc, seq, csum, len⟩)
  | .dec seq csum len => .command (encodeCommand ⟨.dec, seq, csum, len⟩)
  | .csum seq csum len => .command (encodeCommand ⟨.csum, seq, csum, len⟩)
  | .vfy seq csum len => .command (encodeCommand ⟨.vfy, seq, csum, len⟩)
  | .frame csum len seq => .header (encodeHeader csum len seq)

/-- The width and the value of an instruction's word, as the opcode table numbers its bits. -/
def encodeTableWord (i : Instr) : Nat × Nat :=
  match encode i with
  | .command w => (66, w.toNat)
  | .header h => (64, h.toNat)

/-! ### The result word -/

/-- The 2-bit code of a status (R93). -/
def statusCode : Status → BitVec 2
  | .ok => 0b00#2
  | .eShort => 0b01#2
  | .eLength => 0b10#2
  | .ePayload => 0b11#2

/-- The status of a 2-bit code (R93). -/
def statusOfCode (b : BitVec 2) : Status :=
  if b = 0b00#2 then .ok else if b = 0b01#2 then .eShort else if b = 0b10#2 then .eLength else .ePayload

/-- The 69-bit result word (R92): ok 68, op 67:66, status 65:64, seq 63:32, csum 31:16, len 15:0. -/
def encodeResult (r : Result) : BitVec 69 :=
  BitVec.ofBool r.ok ++ opCode r.op ++ statusCode r.status ++ r.seq ++ r.csum ++ r.len

/-- The fields of a 69-bit result word (R92). -/
def decodeResult (w : BitVec 69) : Result :=
  { ok := w.getLsbD 68
    op := opOfCode (w.extractLsb' 66 2)
    status := statusOfCode (w.extractLsb' 64 2)
    seq := w.extractLsb' 32 32
    csum := w.extractLsb' 16 16
    len := w.extractLsb' 0 16 }

end Sys2Proof
end

