-- ==== Sys2Proof/Config.lean ====
section
/-! DEFINITION. What is fixed when a PCODEC is built: the constants of R8 and the open parameter of R9. -/

namespace Sys2Proof

/-- `HEADER_SIZE` (R8): the bytes of the fixed frame header. -/
def headerSize : Nat := 8

/-- The configuration of one PCODEC. `PAYLOAD_MAX` (R9, U12) is a parameter with the constraint
`0 <= PAYLOAD_MAX <= 65527`, which the type carries: `8 + PAYLOAD_MAX` fits the 16-bit total length. -/
structure Config where
  payloadMax : Fin 65528
  deriving DecidableEq, Repr

/-- The default of R9: 500 bytes. -/
def Config.default : Config := ⟨500⟩

end Sys2Proof
end

