-- ==== Sys2Proof/Machine/State.lean ====
section
/-! DEFINITION. The state of one PCODEC: the engine's registers (R28), the payload buffer, the host's side of the four
channels, and the transfers made so far. Plain data; the faults and refusals a step can end in. -/

namespace Sys2Proof.Machine

/-- Byte memory: (address, byte) pairs with strictly rising addresses. An unlisted address holds no value: what
`buf` holds there is unspecified (R47, U1), and reading it is a fault (DESIGN CHOICE, log 5). -/
abbrev Memory := List Host.Cell

/-- The canonical form: addresses strictly rising, so no address twice. Since an unlisted address has no value, no
entry can equal what an unlisted address reads as. -/
abbrev Memory.wf (m : Memory) : Prop := m.Pairwise (fun x y => x.1 < y.1)

/-- Why a step does not happen. Every one of these is safe: the model stops where the block and its host hang or
wait, and claims nothing beyond. -/
inductive Fault where
  /-- Raised by `step`: the engine is idle and the host offers no command word, so no step exists; the run is
  quiescent (R215). Safe. -/
  | quiescent
  /-- Raised by a meaning at a `T_IN`: the engine waits for an input byte the host does not supply; stuck (R222, U5).
  Safe. -/
  | inputStarved
  /-- Raised by a meaning at a `T_OUT`: the host does not accept output bytes; stuck (R222, U5). Safe. -/
  | outputRefused
  /-- Raised by a meaning at a `T_RES`: the host does not accept the result word; stuck (R222, U5). Safe. -/
  | resultRefused
  /-- Raised by a meaning whose command is not the one in progress: `T_CMD` is not enabled while busy (R29), the
  command waits. `step` never raises it: it runs the command in progress. Safe. -/
  | engineBusy
  /-- Raised by a meaning in a busy state in which no channel step is enabled or the enabled one has no rule. Rule
  R39(b) excludes every such state from the runs of the block. Safe. -/
  | noStepEnabled
  /-- Raised by ENC's `T_OUT` on a cell of `buf` that the operation has not written (U1: treat as a fault). Rule R37
  excludes it from the runs of the block. Safe. -/
  | bufUnwritten
  deriving DecidableEq, Repr

/-- Why an instruction has no meaning. -/
inductive Refusal where
  /-- Raised by an arm of `exec` whose instruction has no meaning yet. Safe: nothing runs. No arm does so now. -/
  | notModelled (mnemonic : String)
  /-- Raised by `execFrame`: the frame header "is not an operation" (R95); the operation set is exactly four (R2).
  Safe: nothing runs. -/
  | notAnOperation
  deriving DecidableEq, Repr

/-- The machine. The first field is the parameter of R9, which no step changes (DESIGN CHOICE, log 4). Then the registers of R28, each at its
width. Then the host's side of the channels (R34, R56, R57), which is the model's own (DESIGN CHOICE, log 3, log 10, log 19): the command words it offers,
oldest first; the input bytes it offers, oldest first (R66); how many of the first of these it offered before the last
reset and may still take back (R212, log 20); whether it takes output bytes and results; and, for each
reset it still applies, how many channel transfers come before it. Last, every transfer made so far, oldest first. -/
structure State where
  cfg      : Config
  busy     : Bool
  rOp      : Op
  rSeq     : Seq
  rCsum    : Half
  rLen     : Half
  acc      : Byte
  icnt     : Half
  ocnt     : Half
  hdr      : Vector Byte 8
  hold     : Byte
  holdFull : Bool
  buf      : Memory
  cmdQ     : List Offer
  inQ      : List Byte
  inLeft   : Nat
  outReady : Bool
  resReady : Bool
  rstPlan  : List Nat
  trace    : List Transfer
  deriving DecidableEq, Repr

/-- `hdr` with all eight bytes 0 (R41, R47). -/
def zeroHdr : Vector Byte 8 := Vector.replicate 8 0#8

/-- The machine right after reset (R47): every register 0, `buf` unspecified, nothing transferred yet. The host side
is the model's choice (DESIGN CHOICE, log 3): a host that offers nothing yet, accepts whatever it is given, and plans no reset. -/
def State.reset : State :=
  { cfg := Config.default
    busy := false
    rOp := .enc
    rSeq := 0
    rCsum := 0
    rLen := 0
    acc := 0
    icnt := 0
    ocnt := 0
    hdr := zeroHdr
    hold := 0
    holdFull := false
    buf := []
    cmdQ := []
    inQ := []
    inLeft := 0
    outReady := true
    resReady := true
    rstPlan := []
    trace := [] }

end Sys2Proof.Machine
end

