-- ==== Sys2Proof/Machine/Operands.lean ====
section
/-! DEFINITION. How operands are assembled and addressed: big-endian fields (R14), accesses to a frame at an offset
(R60), the derived predicates of the registers (R38) and the enabling conditions of the channel steps (R39). -/

namespace Sys2Proof.Machine

/-! ### Big-endian fields (R14, R53) -/

/-- `bytes16(v)`: the most significant byte first. -/
def bytes16 (v : Half) : List Byte := [v.extractLsb' 8 8, v.extractLsb' 0 8]

/-- `bytes32(v)`: the most significant byte first. -/
def bytes32 (v : Seq) : List Byte :=
  [v.extractLsb' 24 8, v.extractLsb' 16 8, v.extractLsb' 8 8, v.extractLsb' 0 8]

/-- `be16`: the value of two bytes, the first the more significant. -/
def be16 (b0 b1 : Byte) : Half := BitVec.ofNat 16 (b0.toNat * 256 + b1.toNat)

/-- `be32`: the value of four bytes, the first the most significant. -/
def be32 (b0 b1 b2 b3 : Byte) : Seq :=
  BitVec.ofNat 32 (b0.toNat * 2 ^ 24 + b1.toNat * 2 ^ 16 + b2.toNat * 2 ^ 8 + b3.toNat)

/-! ### The frame as memory (R50, R60) -/

/-- The number a byte string spells, the first byte the most significant. -/
def beNat (bs : List Byte) : Nat := bs.foldl (fun a b => a * 256 + b.toNat) 0

/-- The `n` big-endian bytes of `v` (modulo `256 ^ n`). -/
def beBytes : Nat → Nat → List Byte
  | 0, _ => []
  | n + 1, v => BitVec.ofNat 8 (v / 256 ^ n) :: beBytes n v

/-- `MemRead(F, o, n)` (R60): defined only when the frame has the `n` bytes at offset `o`. -/
def memRead (F : List Byte) (o n : Nat) : Option Nat :=
  if o + n ≤ F.length then some (beNat ((F.drop o).take n)) else none

/-- `MemWrite(F, o, n, v)` (R60): the frame with bytes `o` to `o + n - 1` replaced, when it has them. R60 bounds only
`MemRead`: that a write beyond the end has no value is the model's choice (DESIGN CHOICE, log 25). -/
def memWrite (F : List Byte) (o n v : Nat) : Option (List Byte) :=
  if o + n ≤ F.length then some (F.take o ++ beBytes n v ++ F.drop (o + n)) else none

/-! ### What the registers hold (R30, R35) -/

/-- The command in progress, as latched by `T_CMD` (R30). -/
def State.latched (s : State) : Command := ⟨s.rOp, s.rSeq, s.rCsum, s.rLen⟩

/-- `PAYLOAD_MAX` (R9). -/
def State.payloadMax (s : State) : Nat := s.cfg.payloadMax.val

/-- The checksum field of the received header: `hdr[0] * 256 + hdr[1]` (R35). -/
def hdrCsum (s : State) : Half := be16 s.hdr[0] s.hdr[1]

/-- `declared` (R38): the total-length field of the received header. -/
def declared (s : State) : Half := be16 s.hdr[2] s.hdr[3]

/-- The sequence number of the received header: `be32(hdr, 4)` (R35). -/
def hdrSeq (s : State) : Seq := be32 s.hdr[4] s.hdr[5] s.hdr[6] s.hdr[7]

/-! ### Derived predicates (R38) -/

def encOk (s : State) : Bool := s.rOp == .enc && decide (s.rLen.toNat ≤ s.payloadMax)
def encRef (s : State) : Bool := s.rOp == .enc && decide (s.payloadMax < s.rLen.toNat)
def decShort (s : State) : Bool := s.rOp == .dec && decide (s.rLen.toNat < 8)
def decPass (s : State) : Bool :=
  s.rOp == .dec && decide (8 ≤ s.rLen.toNat) && decide (8 ≤ s.icnt.toNat) && declared s == s.rLen
def decMis (s : State) : Bool :=
  s.rOp == .dec && decide (8 ≤ s.rLen.toNat) && decide (8 ≤ s.icnt.toNat) && declared s != s.rLen

/-! ### Enabling conditions (R39) -/

def enCmd (s : State) : Bool := !s.busy
def enIn (s : State) : Bool :=
  s.busy && decide (s.icnt.toNat < s.rLen.toNat) && !(decPass s && s.holdFull)
def enOut (s : State) : Bool :=
  s.busy && ((encOk s && s.icnt == s.rLen && decide (s.ocnt.toNat < 8 + s.rLen.toNat)) || s.holdFull)
def enRes (s : State) : Bool :=
  s.busy && s.icnt == s.rLen && !s.holdFull && (!encOk s || decide (s.ocnt.toNat = 8 + s.rLen.toNat))

end Sys2Proof.Machine
end

