-- ==== Sys2Proof/Machine/Flags.lean ====
section
/-! DEFINITION. The checksum arithmetic and every Boolean outcome: the 8-bit running sum (R31, R110 to R113), the verify
verdict (R114, R115), the `ok` flag and the `last` marker (R44, R59). -/

namespace Sys2Proof.Machine

/-- `seqsum(seq)` (R110): the exact sum of the four bytes, reduced modulo 256. -/
def seqsum (seq : Seq) : Byte :=
  BitVec.ofNat 8 ((seq.extractLsb' 24 8).toNat + (seq.extractLsb' 16 8).toNat + (seq.extractLsb' 8 8).toNat
    + (seq.extractLsb' 0 8).toNat)

/-- `P[0] + P[1] + ...`, exact (R111). -/
def byteSum (P : List Byte) : Nat := (P.map BitVec.toNat).sum

/-- `checksum(seq, P)` (R111): the exact sum, reduced modulo 256 once. -/
def checksum (seq : Seq) (P : List Byte) : Byte := BitVec.ofNat 8 ((seqsum seq).toNat + byteSum P)

/-- One addition into the accumulator, modulo 256 (R31): the carry out of bit 7 is discarded. -/
def accAdd (acc d : Byte) : Byte := BitVec.ofNat 8 (acc.toNat + d.toNat)

/-- `zext_16` of an 8-bit checksum (R13, R16). -/
def zext16 (c : Byte) : Half := c.setWidth 16

/-- `verify(c, seq, P)` (R114): all 16 bits of the field against the zero-extended checksum (R115). -/
def verify (c : Half) (seq : Seq) (P : List Byte) : Bool := c == zext16 (checksum seq P)

/-- What `T_CMD` puts in `acc` (R41): DEC sums the sequence number from the frame, the others start from it. -/
def initialAcc (c : Command) : Byte := if c.op = .dec then 0#8 else seqsum c.seq

/-- VFY's verdict at `T_RES` (R119). -/
def vfyOk (s : State) : Bool := zext16 s.acc == s.rCsum

/-- DEC's verdict at `T_RES` (R160): the received checksum field against the accumulator, 16 bits. -/
def decOk (s : State) : Bool := hdrCsum s == zext16 s.acc

/-- ENC's `last` marker (R135): set on frame byte `7 + n`. -/
def encLast (s : State) : Bool := decide (s.ocnt.toNat = 7 + s.rLen.toNat)

/-- DEC's `last` marker (R159): set on output byte `r_len - 9`. It is read only with a byte in `hold`, where
`r_len >= 9` (DEDUCED, log 23). -/
def decLast (s : State) : Bool := decide (s.ocnt.toNat + 9 = s.rLen.toNat)

end Sys2Proof.Machine
end

