-- ==== Sys2Proof/Machine/Ops.lean ====
section
/-! DEFINITION. The named operations over memory, registers and channels, the raising of an error, the reset step, and
the one shape of a channel step that the four operations share. -/

namespace Sys2Proof.Machine

/-! ### Byte memory -/

/-- The byte at an address; none where nothing was written. -/
def Memory.read : Memory → Nat → Option Byte
  | [], _ => none
  | (a, b) :: m, k => if a = k then some b else Memory.read m k

/-- Memory with one byte written, in canonical form. -/
def Memory.write : Memory → Nat → Byte → Memory
  | [], k, b => [(k, b)]
  | (a, c) :: m, k, b =>
    if k < a then (k, b) :: (a, c) :: m
    else if k = a then (k, b) :: m
    else (a, c) :: Memory.write m k b

/-- `buf[k]` as the operation in progress may read it: only a cell it has written itself, that is one below `icnt`
(R37, U1). -/
def bufRead (s : State) (k : Nat) : Option Byte :=
  if k < s.icnt.toNat then Memory.read s.buf k else none

/-! ### Register updates -/

/-- `acc <- (acc + d) mod 256` (R31). -/
def State.addAcc (s : State) (d : Byte) : State := { s with acc := accAdd s.acc d }

/-- `buf[icnt] <- d` (R134). -/
def State.writeBuf (s : State) (d : Byte) : State := { s with buf := Memory.write s.buf s.icnt.toNat d }

/-- `hdr[icnt] <- d` (R158), for `icnt < 8`. -/
def State.writeHdr (s : State) (d : Byte) : State := { s with hdr := s.hdr.setIfInBounds s.icnt.toNat d }

/-- `hold <- d; hold_full <- 1` (R158). -/
def State.fillHold (s : State) (d : Byte) : State := { s with hold := d, holdFull := true }

/-- `hold_full <- 0` (R159). -/
def State.emptyHold (s : State) : State := { s with holdFull := false }

/-! ### What every channel step does -/

/-- `T_CMD(cmd)` (R41): every register but `buf` is loaded or cleared. From here on the host takes back no input byte
offered before (R57, R212). -/
def State.accept (s : State) (c : Command) : State :=
  { s with
    busy := true
    rOp := c.op
    rSeq := c.seq
    rCsum := c.csum
    rLen := c.len
    acc := initialAcc c
    icnt := 0
    ocnt := 0
    hdr := zeroHdr
    hold := 0
    holdFull := false
    inLeft := 0
    trace := s.trace ++ [.cmd c] }

/-- What `T_IN(d)` does on every path (R42): the byte leaves the host's side of IN and `icnt <- icnt + 1`. -/
def State.consume (s : State) (d : Byte) (rest : List Byte) : State :=
  { s with icnt := s.icnt + 1, inQ := rest, trace := s.trace ++ [.inp d] }

/-- What `T_OUT(b, last)` does on every path (R135, R159): the byte reaches the host and `ocnt <- ocnt + 1`. -/
def State.emit (s : State) (b : Byte) (last : Bool) : State :=
  { s with ocnt := s.ocnt + 1, trace := s.trace ++ [.out b last] }

/-- `T_RES(res)` (R43): the result reaches the host and `busy <- 0`; no other register changes. -/
def State.deliver (s : State) (r : Result) : State :=
  { s with busy := false, trace := s.trace ++ [.res r] }

/-! ### Results and errors -/

/-- `Result(OK, seq, csum, len, ok)` (R15, R92) of an operation. -/
def okResult (op : Op) (seq : Seq) (csum len : Half) (ok : Bool) : Result :=
  { ok := ok, op := op, status := .ok, seq := seq, csum := csum, len := len }

/-- The status code of an error (R181). -/
def errorStatus : OpError → Status
  | .short => .eShort
  | .length => .eLength
  | .payload => .ePayload

/-- `raise <Error>` (R15, R180): the result of a failing operation. It is a value returned and not a control
transfer: its status is the error's code and every other field but `op` is 0 (R184). There is no return from it
(R187): after the `T_RES` the engine is idle. -/
def raiseError (op : Op) (e : OpError) : Result :=
  { ok := false, op := op, status := errorStatus e, seq := 0, csum := 0, len := 0 }

/-! ### Reset -/

/-- `rst = 1` at the next step: the platform applies a reset now. When resets come is a plan (DESIGN CHOICE, log 10). -/
def rstNow (s : State) : Bool := s.rstPlan.head? == some 0

/-- The plan of resets after one more channel transfer. -/
def State.elapse (s : State) : State :=
  match s.rstPlan with
  | [] => s
  | n :: rest => { s with rstPlan := (n - 1) :: rest }

/-- `T_RST` (R210): every register takes its value of R47 and `buf` is not touched
(DEDUCED, log 6). What the host has not transferred
yet stays on its side, where it may take back the input bytes until its next command (R212); the operation in progress
gets no result. -/
def tRst (s : State) : State :=
  { s with
    busy := false
    rOp := .enc
    rSeq := 0
    rCsum := 0
    rLen := 0
    acc := 0
    icnt := 0
    ocnt := 0
    hdr := zeroHdr
    hold := 0
    holdFull := false
    inLeft := s.inQ.length
    rstPlan := s.rstPlan.tail
    trace := s.trace ++ [.rst] }

/-! ### The shape of a channel step -/

/-- One channel step of the operation `c`, given what its own rules do at a `T_IN`, at a `T_OUT` and at the `T_RES`.
Idle, the engine accepts the command (`T_CMD`). Busy with this command, it takes the one enabled step (R39), if the
host takes part. What it answers otherwise is the model's (DESIGN CHOICE, log 7, log 8, log 9). -/
def channelStep (c : Command) (onIn : State → Byte → State)
    (onOut : State → Host.Outcome State Fault Refusal) (onRes : State → Result) (s : State) :
    Host.Outcome State Fault Refusal :=
  if s.busy = false then .next (s.accept c)
  else if s.latched ≠ c then .fault .engineBusy
  else if enIn s then
    match s.inQ with
    | [] => .fault .inputStarved
    | d :: rest => .next ((onIn s d).consume d rest)
  else if enOut s then
    if s.outReady then onOut s else .fault .outputRefused
  else if enRes s then
    if s.resReady then .next (s.deliver (onRes s)) else .fault .resultRefused
  else .fault .noStepEnabled

end Sys2Proof.Machine
end

