-- ==== Sys2Proof/Machine/Checksum.lean ====
section
/-! DEFINITION. The checksum family (40_checksum.md): CSUM and VFY, at the operation level and at the transfer level. -/

namespace Sys2Proof.Machine

/-- `CSUM(seq, P)` (R116). -/
def csumOp (seq : Seq) (P : List Byte) : List Byte × Result :=
  ([], okResult .csum seq (zext16 (checksum seq P)) (BitVec.ofNat 16 P.length) true)

/-- `VFY(seq, c, P)` (R120): the result carries the recomputed checksum, not the operand. -/
def vfyOp (seq : Seq) (c : Half) (P : List Byte) : List Byte × Result :=
  ([], okResult .vfy seq (zext16 (checksum seq P)) (BitVec.ofNat 16 P.length) (verify c seq P))

/-- `T_IN(d)` of CSUM and VFY (R117), less the count that every `T_IN` makes. -/
def sumIn (s : State) (d : Byte) : State := s.addAcc d

/-- CSUM and VFY have no `T_OUT` step (R117); `en_out` holds in them only in states outside every run. -/
def noOut (_ : State) : Host.Outcome State Fault Refusal := .fault .noStepEnabled

/-- The `T_RES` of a CSUM (R118). -/
def csumRes (s : State) : Result := okResult .csum s.rSeq (zext16 s.acc) s.rLen true

/-- The `T_RES` of a VFY (R119). -/
def vfyRes (s : State) : Result := okResult .vfy s.rSeq (zext16 s.acc) s.rLen (vfyOk s)

/-- CSUM: the next channel step of the operation. -/
def execCsum (seq : Seq) (csum len : Half) (s : State) : Host.Outcome State Fault Refusal :=
  channelStep ⟨.csum, seq, csum, len⟩ sumIn noOut csumRes s

/-- VFY: the next channel step of the operation. -/
def execVfy (seq : Seq) (csum len : Half) (s : State) : Host.Outcome State Fault Refusal :=
  channelStep ⟨.vfy, seq, csum, len⟩ sumIn noOut vfyRes s

end Sys2Proof.Machine
end

