-- ==== Sys2Proof/Machine/Deserialize.lean ====
section
/-! DEFINITION. The deserialiser (42_deserialize.md): DEC, at the operation level and at the transfer level. -/

namespace Sys2Proof.Machine

/-- `decode(B)` (R150): the length of the buffer is tested first (R152), then the declared length (R151); nothing else
is checked (R153). Its properties (R162) are the lemmas `decodeFrame_cases` and `decodeFrame_ok` and the obligations
DecodeFailsExactlyOnLength, DecodeLosesNothing, EncodeOfVerifiedDecode and ReplacedChecksumFieldVerdict. The `none` cases cannot arise: a frame of 8 bytes has every header field (DEDUCED, log 22). -/
def decodeFrame (B : List Byte) : Except OpError Packet :=
  if B.length < 8 then .error .short
  else
    match memRead B 0 2, memRead B 2 2, memRead B 4 4 with
    | some c, some t, some q =>
      if t = B.length then
        .ok { sequenceNumber := BitVec.ofNat 32 q
              checksum := BitVec.ofNat 16 c
              totalLength := BitVec.ofNat 16 t
              payload := B.drop 8 }
      else .error .length
    | _, _, _ => .error .short

/-- `DEC(B)` (R154): the payload and the packet's fields with the verify verdict (R155), or the error (R156). -/
def decOp (B : List Byte) : List Byte × Result :=
  match decodeFrame B with
  | .error e => ([], raiseError .dec e)
  | .ok p => (p.payload,
      okResult .dec p.sequenceNumber p.checksum p.totalLength
        (verify p.checksum p.sequenceNumber p.payload))

/-- `T_IN(d)` of DEC (R158), less the count: header bytes into `hdr`, the sequence-number bytes summed; payload bytes
into `hold` and summed; every byte of a failing frame drained. -/
def decIn (s : State) (d : Byte) : State :=
  if 8 ≤ s.rLen.toNat then
    if s.icnt.toNat < 8 then
      if 4 ≤ s.icnt.toNat then (s.writeHdr d).addAcc d else s.writeHdr d
    else if declared s = s.rLen then (s.fillHold d).addAcc d
    else s
  else s

/-- `T_OUT(b, last)` of DEC (R159), enabled iff `hold_full`. -/
def decOut (s : State) : Host.Outcome State Fault Refusal :=
  .next (s.emptyHold.emit s.hold (decLast s))

/-- The `T_RES` of a DEC (R160). -/
def decRes (s : State) : Result :=
  if s.rLen.toNat < 8 then raiseError .dec .short
  else if declared s ≠ s.rLen then raiseError .dec .length
  else okResult .dec (hdrSeq s) (hdrCsum s) (declared s) (decOk s)

/-- DEC: the next channel step of the operation. -/
def execDec (seq : Seq) (csum len : Half) (s : State) : Host.Outcome State Fault Refusal :=
  channelStep ⟨.dec, seq, csum, len⟩ decIn decOut decRes s

end Sys2Proof.Machine
end

