-- ==== Sys2Proof/Machine/Header.lean ====
section
/-! DEFINITION. The FRAME row of the opcode table: the frame header, which is no operation. -/

namespace Sys2Proof.Machine

/-- FRAME (R80, R95): "it is not an operation and is there so that a frame parser can be written from the table
alone". The spec gives it no step (R2, R34), so it is refused by name (DEDUCED, log 2); ENC writes the layout and DEC reads it. -/
def execFrame (_csum _len : Half) (_seq : Seq) (_s : State) : Host.Outcome State Fault Refusal :=
  .refused .notAnOperation

end Sys2Proof.Machine
end

