-- ==== Sys2Proof/Machine/Serialize.lean ====
section
/-! DEFINITION. The serialiser (41_serialize.md): ENC, at the operation level and at the transfer level. -/

namespace Sys2Proof.Machine

/-- `encode(seq, P)` (R130): checksum, total length and sequence number, big-endian, then the payload verbatim.
Its properties (R137) are the lemma `encodeFrame_length` and the obligation EncProperties. -/
def encodeFrame (seq : Seq) (P : List Byte) : List Byte :=
  bytes16 (zext16 (checksum seq P)) ++ bytes16 (BitVec.ofNat 16 (8 + P.length)) ++ bytes32 seq ++ P

/-- `ENC(seq, P)` (R131), for a given `PAYLOAD_MAX`: a longer payload is refused (R132). -/
def encOp (payloadMax : Nat) (seq : Seq) (P : List Byte) : List Byte × Result :=
  if payloadMax < P.length then ([], raiseError .enc .payload)
  else (encodeFrame seq P,
    okResult .enc seq (zext16 (checksum seq P)) (BitVec.ofNat 16 (8 + P.length)) true)

/-- `T_IN(d)` of ENC (R134), less the count: an accepted ENC buffers and sums the byte, a refused one drains it. -/
def encIn (s : State) (d : Byte) : State :=
  if encOk s then (s.writeBuf d).addAcc d else s

/-- The total length `t <- 8 + r_len` (R135), which fits 16 bits in an accepted ENC. -/
def encTotal (s : State) : Half := BitVec.ofNat 16 (8 + s.rLen.toNat)

/-- The byte a `T_OUT` of ENC carries, by `ocnt` (R135); none for a cell of `buf` not written in this operation. -/
def encByte (s : State) : Option Byte :=
  match s.ocnt.toNat with
  | 0 => some 0#8
  | 1 => some s.acc
  | 2 => some ((encTotal s).extractLsb' 8 8)
  | 3 => some ((encTotal s).extractLsb' 0 8)
  | 4 => some (s.rSeq.extractLsb' 24 8)
  | 5 => some (s.rSeq.extractLsb' 16 8)
  | 6 => some (s.rSeq.extractLsb' 8 8)
  | 7 => some (s.rSeq.extractLsb' 0 8)
  | k + 8 => bufRead s k

/-- `T_OUT(b, last)` of ENC (R135), enabled iff the ENC is accepted, its input complete and its frame not yet. -/
def encOut (s : State) : Host.Outcome State Fault Refusal :=
  if encOk s && s.icnt == s.rLen && decide (s.ocnt.toNat < 8 + s.rLen.toNat) then
    match encByte s with
    | some b => .next (s.emit b (encLast s))
    | none => .fault .bufUnwritten
  else .fault .noStepEnabled

/-- The `T_RES` of an ENC (R136). -/
def encRes (s : State) : Result :=
  if encOk s then okResult .enc s.rSeq (zext16 s.acc) (encTotal s) true
  else raiseError .enc .payload

/-- ENC: the next channel step of the operation. -/
def execEnc (seq : Seq) (csum len : Half) (s : State) : Host.Outcome State Fault Refusal :=
  channelStep ⟨.enc, seq, csum, len⟩ encIn encOut encRes s

end Sys2Proof.Machine
end

