-- ==== Sys2Proof/Machine/Dispatch.lean ====
section
/-! DEFINITION. One arm per constructor of `Instr`. -/

namespace Sys2Proof.Machine

/-- The next channel step of the operation `i`. -/
def exec (i : Instr) (s : State) : Host.Outcome State Fault Refusal :=
  match i with
  | .enc seq csum len => Sys2Proof.Machine.execEnc seq csum len s
  | .dec seq csum len => Sys2Proof.Machine.execDec seq csum len s
  | .csum seq csum len => Sys2Proof.Machine.execCsum seq csum len s
  | .vfy seq csum len => Sys2Proof.Machine.execVfy seq csum len s
  | .frame csum len seq => Sys2Proof.Machine.execFrame csum len seq s

end Sys2Proof.Machine
end

