-- ==== Sys2Proof/Machine/Fetch.lean ====
section
/-! DEFINITION. What stands in for fetching an instruction (R64): while busy the latched command, while idle the next
word the host offers on CMD. -/

namespace Sys2Proof.Machine

/-- The instruction whose step comes next and the state it runs in; none when the engine is idle and the host offers
no command. While idle the offered word leaves the host's side of CMD (R56); one channel transfer is counted off the
plan of resets. -/
def fetch (s : State) : Option (Instr × State) :=
  if s.busy then some (s.latched.toInstr, s.elapse)
  else
    match s.cmdQ with
    | [] => none
    | o :: rest => some (decodeOffer o, { s.elapse with cmdQ := rest })

/-- `s` with `o` as the next word the engine samples: idle, `o` first on CMD, no reset due at once. -/
def offerFirst (s : State) (o : Offer) : State :=
  { s with busy := false, cmdQ := o :: s.cmdQ, rstPlan := s.rstPlan.dropWhile (· == 0) }

/-- `s` with nothing for the engine to sample. -/
def offerNothing (s : State) : State :=
  { s with busy := false, cmdQ := [], rstPlan := s.rstPlan.dropWhile (· == 0) }

end Sys2Proof.Machine
end

