-- ==== Sys2Proof/Machine/Step.lean ====
section
/-! DEFINITION. One step of the machine: a reset or one channel transfer (R12, R34). -/

namespace Sys2Proof.Machine

/-- A reset takes priority over any channel transfer (R210); otherwise the operation in progress, or the command the
host offers, takes its next channel step. -/
def step (s : State) : Host.Outcome State Fault Refusal :=
  if rstNow s then .next (tRst s)
  else
    match fetch s with
    | none => .fault .quiescent
    | some (i, s') => exec i s'

/-- `s` with the table word `w` where `step` samples its next command. A number that is no word of the table leaves
nothing there (DESIGN CHOICE, log 11). -/
def State.withFetchWord (s : State) (nbits w : Nat) : State :=
  match readTableWord nbits w with
  | .ok o => offerFirst s o
  | .error _ => offerNothing s

end Sys2Proof.Machine
end

