-- ==== Sys2Proof/Machine/HostSide.lean ====
section
/-! DEFINITION. The host as an agent (R34, R226): its moves between the engine's steps, and runs in which the two
alternate freely. -/

namespace Sys2Proof.Machine

/-- A host move changes the host's side of the channels only. New words wait behind those already offered (R56).
The host takes back only input bytes it had offered when a reset came, and only before its next command (R212): at any
other time `inLeft` is 0 and `withdrawInput` does nothing, since an offered word stays offered and unchanged until its
transfer (R57, U4; log 15). DESIGN CHOICE, log 20. -/
def hostMove (m : HostMove) (s : State) : State :=
  match m with
  | .offer w => { s with cmdQ := s.cmdQ ++ [.command w] }
  | .supply d => { s with inQ := s.inQ ++ [d] }
  | .withdrawInput => { s with inQ := s.inQ.drop s.inLeft, inLeft := 0 }
  | .takeOut ready => { s with outReady := ready }
  | .takeRes ready => { s with resReady := ready }
  | .planReset n => { s with rstPlan := s.rstPlan ++ [n] }

/-- An open run: machine steps and host moves in a given order, stopping at the first fault or refusal. -/
def runEvents : List RunEvent → State → Host.Outcome State Fault Refusal
  | [], s => .next s
  | .host m :: es, s => runEvents es (hostMove m s)
  | .step :: es, s =>
    match step s with
    | .next t => runEvents es t
    | .fault f => .fault f
    | .refused r => .refused r

/-! ### Reading a list of events -/

/-- The input bytes the host supplies in the course of the events. -/
def suppliedBytes (es : List RunEvent) : List Byte :=
  es.filterMap (fun e => match e with
    | .host (.supply d) => some d
    | _ => none)

/-- The command words the host offers in the course of the events. -/
def offeredWords (es : List RunEvent) : List Offer :=
  es.filterMap (fun e => match e with
    | .host (.offer w) => some (.command w)
    | _ => none)

/-- How many of the events are steps of the machine. -/
def stepCount (es : List RunEvent) : Nat := es.count .step

/-- No reset is due or planned in the course of the events (R40: "let no `T_RST` occur"). -/
def NoReset (s : State) (es : List RunEvent) : Prop := s.rstPlan = [] ∧ ∀ n, .host (.planReset n) ∉ es

/-- What R40 assumes of the host, whatever the timing (R11, R48): the engine is idle and no reset occurs; the first command
word it offers is that of `c`; the input bytes it offers begin with `B`, `c.len` bytes, of which it still keeps `more`
back after the events; and it takes none back. How its moves stand among the steps is free: it may offer the bytes early
or late, pause, and stall on OUT and RES (R226). -/
structure Feeds (c : Command) (B more rest : List Byte) (q : List Offer) (s : State) (es : List RunEvent) : Prop where
  idle : s.busy = false
  noReset : NoReset s es
  command : s.cmdQ ++ offeredWords es = .command (encodeCommand c) :: q
  length : B.length = c.len.toNat
  input : s.inQ ++ suppliedBytes es ++ more = B ++ rest
  keeps : .host .withdrawInput ∈ es → s.inLeft = 0

/-- The events with which a host completes the operation after `n` of its `total` transfers: it becomes ready on OUT and
RES, supplies `more`, and the machine makes the transfers that are left. -/
def completion (more : List Byte) (n total : Nat) : List RunEvent :=
  [.host (.takeOut true), .host (.takeRes true)] ++ more.map (fun d => .host (.supply d)) ++
    List.replicate (total - n) .step

end Sys2Proof.Machine
end

