-- ==== Sys2Proof/Machine/Operation.lean ====
section
/-! DEFINITION. The operation level (R11): each operation as one function from its command and input bytes to its output
bytes and result, and the one sequence of transfers the transfer level makes of it (R48). -/

namespace Sys2Proof.Machine

/-- The operation-level meaning of a command on its input bytes (R116, R120, R131, R154). -/
def operation (cfg : Config) (c : Command) (B : List Byte) : List Byte × Result :=
  match c.op with
  | .enc => encOp cfg.payloadMax.val c.seq B
  | .dec => decOp B
  | .csum => csumOp c.seq B
  | .vfy => vfyOp c.seq c.csum B

/-- The output bytes with the marker of R59: 1 exactly on the last one. -/
def markLast : List Byte → List (Byte × Bool)
  | [] => []
  | [b] => [(b, true)]
  | b :: b' :: bs => (b, false) :: markLast (b' :: bs)

/-- The transfers of an operation between its `T_CMD` and its `T_RES`, in the only possible order: CSUM and VFY input
only (R117); ENC all input, then the frame (R133); DEC the header, then each payload byte in and out (R157); a refused
or failing operation input only. -/
def dataTransfers (cfg : Config) (c : Command) (B : List Byte) : List Transfer :=
  match c.op with
  | .csum => B.map .inp
  | .vfy => B.map .inp
  | .enc => B.map .inp ++ (markLast (encOp cfg.payloadMax.val c.seq B).1).map (fun o => .out o.1 o.2)
  | .dec =>
    match decodeFrame B with
    | .error _ => B.map .inp
    | .ok p => (B.take 8).map .inp ++ (markLast p.payload).flatMap (fun o => [.inp o.1, .out o.1 o.2])

/-- Every transfer of one operation (R48). -/
def operationTransfers (cfg : Config) (c : Command) (B : List Byte) : List Transfer :=
  [.cmd c] ++ dataTransfers cfg c B ++ [.res (operation cfg c B).2]

/-- How many steps an operation takes (R225): `1 + cmd.len + (output bytes) + 1`. -/
def operationSteps (cfg : Config) (c : Command) (B : List Byte) : Nat :=
  1 + B.length + (operation cfg c B).1.length + 1

/-- A program (R96, R215): operations in order, each with exactly its input bytes. -/
abbrev Program := List (Command × List Byte)

/-- Every operation is given exactly `cmd.len` bytes (R226). -/
def Program.fed (p : Program) : Prop := ∀ x ∈ p, x.2.length = x.1.len.toNat

/-- The command words of a program, in order. -/
def Program.offers (p : Program) : List Offer := p.map (fun x => .command (encodeCommand x.1))

/-- The input bytes of a program, in order. -/
def Program.input (p : Program) : List Byte := p.flatMap (·.2)

/-- The observation of a program (R215): one pair of output bytes and result word per operation. -/
def Program.observation (cfg : Config) (p : Program) : List (List Byte × Result) :=
  p.map (fun x => operation cfg x.1 x.2)

/-- The steps of a program. -/
def Program.steps (cfg : Config) (p : Program) : Nat := (p.map (fun x => operationSteps cfg x.1 x.2)).sum

/-! ### Reading a list of transfers -/

/-- The words that crossed OUT. -/
def outWords (ts : List Transfer) : List (Byte × Bool) :=
  ts.filterMap (fun t => match t with
    | .out b last => some (b, last)
    | _ => none)

/-- The bytes that crossed IN. -/
def inBytes (ts : List Transfer) : List Byte :=
  ts.filterMap (fun t => match t with
    | .inp d => some d
    | _ => none)

/-- The words that crossed RES. -/
def resWords (ts : List Transfer) : List Result :=
  ts.filterMap (fun t => match t with
    | .res r => some r
    | _ => none)

/-- What is observed of an operation that got no result: its OUT bytes so far, and no result word (R212, U8). `op` holds
the OUT bytes of the operation in progress, none when idle. -/
def observeUnfinished (op : Option (List Byte)) : List (List Byte × Option Result) :=
  (op.map (fun bs => (bs, none))).toList

/-- The observation of a list of transfers: for each operation, in order, its OUT bytes and its result word (R215). R215
defines it only for runs with no `T_RST` after the first. That an operation a `T_RST` aborts gives a pair of its own, the
partial output with no result, that the list goes on after it, and that an operation still in progress at the end gives
such a pair too, is the model's choice (DESIGN CHOICE, log 26), after U8. -/
def observe (op : Option (List Byte)) : List Transfer → List (List Byte × Option Result)
  | [] => observeUnfinished op
  | .cmd _ :: ts => observeUnfinished op ++ observe (some []) ts
  | .inp _ :: ts => observe op ts
  | .out b _ :: ts => observe (op.map (· ++ [b])) ts
  | .res r :: ts => (op.getD [], some r) :: observe none ts
  | .rst :: ts => observeUnfinished op ++ observe none ts

end Sys2Proof.Machine
end

