-- ==== Sys2Proof/Machine/Pins.lean ====
section
/-! DEFINITION. The engine's output pins (R57, R211) as functions of the registers and of `rst`. -/

namespace Sys2Proof.Machine

/-- `cmd_ready`, `in_ready`, `out_valid`, `res_valid` (R57): the enabling conditions, all 0 while `rst = 1` (R211). -/
def cmdReady (s : State) : Bool := enCmd s && !rstNow s
def inReady (s : State) : Bool := enIn s && !rstNow s
def outValid (s : State) : Bool := enOut s && !rstNow s
def resValid (s : State) : Bool := enRes s && !rstNow s

/-- `cmd_valid` (R57): the host offers a command word next. A frame-header word is none. -/
def cmdValid (s : State) : Bool :=
  match s.cmdQ with
  | .command _ :: _ => true
  | .header _ :: _ => false
  | [] => false

/-- `in_valid` (R57): the host offers an input byte. -/
def inValid (s : State) : Bool := !s.inQ.isEmpty

/-- `out_data` and `out_last` while `out_valid = 1` (R135, R159); no defined value otherwise (R224(d), U2). -/
def outPins (s : State) : Option (Byte × Bool) :=
  if outValid s then
    match s.rOp with
    | .enc => (encByte s).map (fun b => (b, encLast s))
    | .dec => some (s.hold, decLast s)
    | .csum => none
    | .vfy => none
  else none

/-- The result word of the operation in progress, by its operation code (R118, R119, R136, R160). -/
def resultOf (op : Op) (s : State) : Result :=
  match op with
  | .enc => encRes s
  | .dec => decRes s
  | .csum => csumRes s
  | .vfy => vfyRes s

/-- The `res_*` pins while `res_valid = 1`; no defined value otherwise (R224(d), U2). -/
def resPins (s : State) : Option Result := if resValid s then some (resultOf s.rOp s) else none

end Sys2Proof.Machine
end

