-- ==== Sys2Proof/Safety.lean ====
section
/-! DEFINITION. What holds of every state a run reaches, what a well-ordered list of transfers is, and when two states look
alike to the host. -/

namespace Sys2Proof.Machine

/-- The engine invariant: what R32, R35, R36, R37 and R39 say of the registers while an operation is in progress,
the canonical form of `buf`, and what the host may take back. -/
structure Inv (s : State) : Prop where
  /-- `buf` is in canonical form. -/
  bufWf : Memory.wf s.buf
  /-- `buf` has `PAYLOAD_MAX` elements (R37). -/
  bufRange : ∀ x ∈ s.buf, x.1 < s.payloadMax
  /-- `icnt <= r_len` (R32). -/
  icntLe : s.busy = true → s.icnt.toNat ≤ s.rLen.toNat
  /-- `hold_full = 1` implies `dec_pass` (R39(a)). -/
  holdPass : s.busy = true → s.holdFull = true → decPass s = true
  /-- Every element of `buf` below `icnt` was written in an accepted ENC (R37). -/
  encBuf : s.busy = true → encOk s = true → ∀ k, k < s.icnt.toNat → (Memory.read s.buf k).isSome = true
  /-- ENC: `ocnt <= 8 + r_len` (R32), and no output before the input is complete (R39(d)) or when refused (R132). -/
  encCount : s.busy = true → s.rOp = .enc →
    s.ocnt.toNat ≤ 8 + s.rLen.toNat ∧ (s.ocnt ≠ 0 → encOk s = true ∧ s.icnt = s.rLen)
  /-- CSUM and VFY have no output (R117). -/
  sumCount : s.busy = true → s.rOp = .csum ∨ s.rOp = .vfy → s.ocnt = 0
  /-- DEC: past the header each payload byte is consumed, then emitted (R39(e)); a failing DEC emits nothing (R157). -/
  decCount : s.busy = true → s.rOp = .dec →
    (decPass s = true → s.icnt.toNat = s.ocnt.toNat + 8 + (if s.holdFull then 1 else 0)) ∧
    (decPass s = false → s.ocnt = 0)
  /-- `hdr` and `hold` are unused outside DEC (R35, R36). -/
  decOnly : s.busy = true → s.rOp ≠ .dec → s.hdr = zeroHdr ∧ s.hold = 0 ∧ s.holdFull = false
  /-- A short DEC fills no header byte (R158). -/
  shortHdr : s.busy = true → decShort s = true → s.hdr = zeroHdr
  /-- What the host may take back is on its side of IN, and nothing while an operation is in progress (R57, R212). -/
  leftOver : s.inLeft ≤ s.inQ.length ∧ (s.busy = true → s.inLeft = 0)

/-- The host takes part in the channel step the engine has enabled (its duty, R226): it offers a command word, or the
input byte, or takes the output byte, or the result. -/
def hostTakesPart (s : State) : Bool :=
  (!enCmd s || cmdValid s) && (!enIn s || inValid s) && (!enOut s || s.outReady) && (!enRes s || s.resReady)

/-! ### Well-ordered transfers -/

/-- An operation between its `T_CMD` and its `T_RES` (R215): its command, the IN and the OUT transfers so far. -/
structure Progress where
  cmd  : Command
  nIn  : Nat
  nOut : Nat
  deriving DecidableEq, Repr

/-- The number of output bytes of an operation that emits any (R56). -/
def outTotal (c : Command) : Nat :=
  match c.op with
  | .enc => 8 + c.len.toNat
  | .dec => c.len.toNat - 8
  | .csum => 0
  | .vfy => 0

/-- Whether the next transfer may be an OUT: in ENC after all input, in DEC after input byte `8 + j` and before input
byte `9 + j` (R62(e)), never in CSUM and VFY (R117). -/
def outAllowed (p : Progress) : Bool :=
  decide (p.nOut < outTotal p.cmd) &&
  match p.cmd.op with
  | .enc => decide (p.nIn = p.cmd.len.toNat)
  | .dec => decide (p.nIn = 9 + p.nOut)
  | .csum => false
  | .vfy => false

/-- One transfer in a well-ordered list (R62): none if it is out of order. Idle is `none`, inside. A `T_CMD` comes only
when idle; an operation consumes at most `cmd.len` bytes; `last` is 1 exactly on the final output byte (R59); the
`T_RES` comes after exactly `cmd.len` bytes, names the operation (R42, R92), and follows all its output, which is none
when it failed (R62(d), R180); a `T_RST` ends anything. -/
def advance (p : Option Progress) (t : Transfer) : Option (Option Progress) :=
  match p, t with
  | none, .cmd c => some (some ⟨c, 0, 0⟩)
  | some p, .inp _ =>
    if p.nIn < p.cmd.len.toNat then some (some { p with nIn := p.nIn + 1 }) else none
  | some p, .out _ last =>
    if outAllowed p && last == decide (p.nOut + 1 = outTotal p.cmd) then some (some { p with nOut := p.nOut + 1 })
    else none
  | some p, .res r =>
    if p.nIn = p.cmd.len.toNat ∧ r.op = p.cmd.op ∧ p.nOut = (if r.status = .ok then outTotal p.cmd else 0) then
      some none
    else none
  | _, .rst => some none
  | none, .inp _ => none
  | none, .out _ _ => none
  | none, .res _ => none
  | some _, .cmd _ => none

/-- A list of transfers read from a given progress; none if some transfer is out of order. -/
def scan : Option Progress → List Transfer → Option (Option Progress)
  | p, [] => some p
  | p, t :: ts => (advance p t).bind (fun q => scan q ts)

/-- What the registers say of the operation in progress (R33). -/
def State.progress (s : State) : Option Progress :=
  if s.busy then some ⟨s.latched, s.icnt.toNat, s.ocnt.toNat⟩ else none

/-- The transfers made so far are well ordered and end where the registers say. -/
def Ordered (s : State) : Prop := scan none s.trace = some s.progress

/-! ### States that look alike -/

/-- Two states that agree on the parameter, on the host's side and on `busy`, and, while busy, on every register the
operation in progress can still use: all but the cells of `buf` it has not written (R46). -/
structure Alike (s t : State) : Prop where
  cfg : s.cfg = t.cfg
  busy : s.busy = t.busy
  cmdQ : s.cmdQ = t.cmdQ
  inQ : s.inQ = t.inQ
  inLeft : s.inLeft = t.inLeft
  outReady : s.outReady = t.outReady
  resReady : s.resReady = t.resReady
  rstPlan : s.rstPlan = t.rstPlan
  trace : s.trace = t.trace
  regs : s.busy = true → { s with buf := [] } = { t with buf := [] }
  cells : s.busy = true → encOk s = true → ∀ k, k < s.icnt.toNat → Memory.read s.buf k = Memory.read t.buf k

/-- Two outcomes that look alike: both go on in alike states, or both stop for the same reason. -/
def AlikeOutcome : Host.Outcome State Fault Refusal → Host.Outcome State Fault Refusal → Prop
  | .next s, .next t => Alike s t
  | .fault a, .fault b => a = b
  | .refused a, .refused b => a = b
  | _, _ => False

end Sys2Proof.Machine
end

