-- ==== Sys2Proof/Certificates/Slice0/Obligations.lean ====
section
/-! DEFINITION. The statements about PCODEC: encodings, the codec's functions, every step of every operation, the reset,
the invariants, and the tie between the transfer level and the operation level. -/

open Sys2Proof Sys2Proof.Machine

/-! ### Encodings -/

/-- Words written out in 95_test_vectors.md (V3, V12, V25, V48a, V26) and a header word laid out by R80 decode to the
instructions they stand for. -/
def Obligations.WrittenOutWordsDecode : Prop :=
  decodeOffer (.command 0x20000000000000002#66) = .csum 0 0 2 ∧
  decodeOffer (.command 0x30000000001830002#66) = .vfy 0 0x0183 2 ∧
  decodeOffer (.command 0x0DEADBEEF00000003#66) = .enc 0xDEADBEEF 0 3 ∧
  decodeOffer (.command 0x1DEADBEEF1234000A#66) = .dec 0xDEADBEEF 0x1234 10 ∧
  decodeOffer (.command 0x000000000000001F4#66) = .enc 0 0 500 ∧
  decodeOffer (.header 0x0083000A00000001#64) = .frame 0x0083 10 1

/-- Decoding the encoding of any instruction gives it back, as an offered word and as a word of the opcode table. -/
def Obligations.DecodeOfEncodeIsIdentity : Prop :=
  ∀ i : Instr, decodeOffer (encode i) = i ∧
    decodeTableWord (encodeTableWord i).1 (encodeTableWord i).2 = some i

/-- R89: every 66-bit command word is a legal command: it is the word of exactly one command, the decoder reads that
one, and an idle engine accepts it. -/
def Obligations.EveryCommandWordIsLegal : Prop :=
  ∀ w : BitVec 66,
    (∃ c : Command, decodeOffer (.command w) = c.toInstr ∧ encodeCommand c = w ∧
      ∀ c' : Command, encodeCommand c' = w → c' = c) ∧
    ∀ (s : State) (rest : List Offer), s.busy = false → rstNow s = false → s.cmdQ = .command w :: rest →
      ∃ t, step s = .next t

/-- The fields of the command word stand at the bits of R90, and the codes are those of R88. -/
def Obligations.CommandWordFieldPositions : Prop :=
  (∀ c : Command,
    (encodeCommand c).extractLsb' 64 2 = opCode c.op ∧ (encodeCommand c).extractLsb' 32 32 = c.seq ∧
    (encodeCommand c).extractLsb' 16 16 = c.csum ∧ (encodeCommand c).extractLsb' 0 16 = c.len) ∧
  opCode .enc = 0b00#2 ∧ opCode .dec = 0b01#2 ∧ opCode .csum = 0b10#2 ∧ opCode .vfy = 0b11#2

/-- The 69-bit result word has its fields at the bits of R92 with the status codes of R93, and no two results share a
word. -/
def Obligations.ResultWordFieldPositions : Prop :=
  (∀ r : Result, decodeResult (encodeResult r) = r ∧
    (encodeResult r).extractLsb' 68 1 = BitVec.ofBool r.ok ∧ (encodeResult r).extractLsb' 66 2 = opCode r.op ∧
    (encodeResult r).extractLsb' 64 2 = statusCode r.status ∧ (encodeResult r).extractLsb' 32 32 = r.seq ∧
    (encodeResult r).extractLsb' 16 16 = r.csum ∧ (encodeResult r).extractLsb' 0 16 = r.len) ∧
  (∀ w : BitVec 69, encodeResult (decodeResult w) = w) ∧
  statusCode .ok = 0b00#2 ∧ statusCode .eShort = 0b01#2 ∧ statusCode .eLength = 0b10#2 ∧
  statusCode .ePayload = 0b11#2

/-- R80: the first eight bytes of a frame ENC makes spell, big-endian, the header word of the table's FRAME row with the
zero-extended checksum, the total length `8 + n` and the sequence number; the payload follows. -/
def Obligations.FrameHeaderWordOfEncodedFrame : Prop :=
  ∀ (seq : Seq) (P : List Byte), P.length ≤ 65527 →
    encode (.frame (zext16 (checksum seq P)) (BitVec.ofNat 16 (8 + P.length)) seq) =
      .header (BitVec.ofNat 64 (beNat ((encodeFrame seq P).take 8))) ∧
    (encodeFrame seq P).drop 8 = P ∧ (encodeFrame seq P).length = 8 + P.length

/-! ### The functions of the codec -/

/-- R110: `seqsum` is the sum of the four bytes of the sequence number modulo 256, with the rule's examples. -/
def Obligations.SeqsumSumsTheFourBytes : Prop :=
  (∀ q : Seq, (seqsum q).toNat =
    (q.toNat / 2 ^ 24 + q.toNat / 2 ^ 16 % 256 + q.toNat / 2 ^ 8 % 256 + q.toNat % 256) % 256) ∧
  seqsum 0 = 0 ∧ seqsum 1 = 1 ∧ seqsum 0x100 = 1 ∧ seqsum 0x01020304 = 10 ∧ seqsum 0xFFFFFFFF = 252 ∧
  seqsum 0xFF000001 = 0

/-- R111: the checksum is the exact sum of the four sequence-number bytes and of every payload byte, reduced modulo 256;
for the empty payload it is `seqsum`. -/
def Obligations.ChecksumSumsSequenceAndPayload : Prop :=
  (∀ (seq : Seq) (P : List Byte),
    (checksum seq P).toNat = ((bytes32 seq ++ P).map BitVec.toNat).sum % 256) ∧
  ∀ seq : Seq, checksum seq [] = seqsum seq

/-- R113: the 8-bit accumulator, started at `seqsum` or at 0 and fed the four sequence bytes, and fed the payload bytes
in any order, ends at the checksum. -/
def Obligations.RunningSumIsChecksumInAnyOrder : Prop :=
  (∀ a b : Nat, (a % 256 + b) % 256 = (a + b) % 256) ∧
  ∀ (seq : Seq) (P Q : List Byte), Q.Perm P →
    Q.foldl accAdd (seqsum seq) = checksum seq P ∧ Q.foldl accAdd ((bytes32 seq).foldl accAdd 0) = checksum seq P

/-- R114 and R115: `verify` is the equality of the whole 16-bit field with the zero-extended checksum. A field above 255
never verifies, and no field verifies after one of its 16 bits is flipped. -/
def Obligations.VerifyComparesAllSixteenBits : Prop :=
  ∀ (c : Half) (seq : Seq) (P : List Byte),
    (verify c seq P = true ↔ c.toNat = (checksum seq P).toNat) ∧ (255 < c.toNat → verify c seq P = false) ∧
    ∀ i, i < 16 → verify c seq P = true → verify (c ^^^ (1#16 <<< i)) seq P = false

/-- R130: the frame by concatenation and the frame by memory writes are the same. -/
def Obligations.EncodeFrameByMemoryWrites : Prop :=
  ∀ (seq : Seq) (P F : List Byte), P.length ≤ 65527 → F.length = 8 + P.length →
    encodeFrame seq P = bytes16 (zext16 (checksum seq P)) ++ bytes16 (BitVec.ofNat 16 (8 + P.length)) ++ bytes32 seq ++ P ∧
    (do
      let F0 ← memWrite F 0 2 (checksum seq P).toNat
      let F1 ← memWrite F0 2 2 (8 + P.length)
      let F2 ← memWrite F1 4 4 seq.toNat
      P.zipIdx.foldlM (fun G x => memWrite G (8 + x.2) 1 x.1.toNat) F2) = some (encodeFrame seq P)

/-- R151, R152: `decode` answers exactly one of `E_SHORT` (fewer than 8 bytes), `E_LENGTH` (the 16-bit field at offset 2
is not the number of bytes) and success, on every byte string. -/
def Obligations.DecodeFailsExactlyOnLength : Prop :=
  ∀ B : List Byte,
    (decodeFrame B = .error .short ↔ B.length < 8) ∧
    (decodeFrame B = .error .length ↔ 8 ≤ B.length ∧ memRead B 2 2 ≠ some B.length) ∧
    ((∃ p, decodeFrame B = .ok p) ↔ 8 ≤ B.length ∧ memRead B 2 2 = some B.length) ∧
    decodeFrame B ≠ .error .payload

/-- R150: the packet of a successful `decode` has the fields at offsets 0, 2 and 4 and the bytes from 8 on; decoding
loses nothing and the Packet invariant holds (R162(b)). -/
def Obligations.DecodeLosesNothing : Prop :=
  ∀ (B : List Byte) (p : Packet), decodeFrame B = .ok p →
    memRead B 0 2 = some p.checksum.toNat ∧ memRead B 2 2 = some p.totalLength.toNat ∧
    memRead B 4 4 = some p.sequenceNumber.toNat ∧ p.payload = B.drop 8 ∧
    B = bytes16 p.checksum ++ bytes16 p.totalLength ++ bytes32 p.sequenceNumber ++ p.payload ∧
    p.totalLength.toNat = 8 + p.payload.length

/-- R137(b), R121(a): decoding an encoded packet gives back its sequence number, total length and payload, and it
verifies, for every payload length the length field admits. -/
def Obligations.DecodeOfEncodeVerifies : Prop :=
  ∀ (seq : Seq) (P : List Byte), P.length ≤ 65527 →
    ∃ p, decodeFrame (encodeFrame seq P) = .ok p ∧ p.sequenceNumber = seq ∧ p.totalLength.toNat = 8 + P.length ∧
      p.payload = P ∧ p.checksum.toNat = (checksum seq P).toNat ∧
      verify p.checksum p.sequenceNumber p.payload = true

/-- R162(c): a decoded packet that verifies encodes back to its frame. -/
def Obligations.EncodeOfVerifiedDecode : Prop :=
  ∀ (B : List Byte) (p : Packet), decodeFrame B = .ok p → verify p.checksum p.sequenceNumber p.payload = true →
    encodeFrame p.sequenceNumber p.payload = B

/-- R137(c): `encode` is injective. -/
def Obligations.EncodeFrameInjective : Prop :=
  ∀ (q q' : Seq) (P P' : List Byte), encodeFrame q P = encodeFrame q' P' → q = q' ∧ P = P'

/-- R121(b), R162(e): a frame whose checksum field is replaced by any 16-bit value still decodes to the same sequence
number, length and payload, and its verdict is 1 exactly when the value is the original field; so it is 0 after any of
the 16 bits is flipped. -/
def Obligations.ReplacedChecksumFieldVerdict : Prop :=
  ∀ (seq : Seq) (P : List Byte) (c : Half), P.length ≤ 65527 →
    decOp (bytes16 c ++ (encodeFrame seq P).drop 2) =
      (P, { ok := decide (c = zext16 (checksum seq P)), op := .dec, status := .ok, seq := seq
            csum := c, len := BitVec.ofNat 16 (8 + P.length) }) ∧
    ∀ i, i < 16 → zext16 (checksum seq P) ^^^ (1#16 <<< i) ≠ zext16 (checksum seq P)

/-- R121(c): replacing exactly one byte of an encoded frame is always noticed: in the length field as `E_LENGTH`, anywhere
else as a successful decode with verdict 0. -/
def Obligations.SingleByteCorruptionDetected : Prop :=
  ∀ (seq : Seq) (P : List Byte) (k : Nat) (d : Byte), P.length ≤ 65527 → k < 8 + P.length →
    (encodeFrame seq P)[k]? ≠ some d →
    (decOp ((encodeFrame seq P).set k d)).2.ok = false ∧
    (decOp ((encodeFrame seq P).set k d)).2.status = (if k = 2 ∨ k = 3 then .eLength else .ok)

/-- R121(d): a change to the sequence number and the payload that keeps the length passes exactly when it leaves their
sum modulo 256 unchanged. -/
def Obligations.CompensatingCorruptionPasses : Prop :=
  ∀ (seq seq' : Seq) (P P' : List Byte), P.length ≤ 65527 → P'.length = P.length →
    (decOp ((encodeFrame seq P).take 4 ++ bytes32 seq' ++ P')).2.status = .ok ∧
    ((decOp ((encodeFrame seq P).take 4 ++ bytes32 seq' ++ P')).2.ok = true ↔
      ((seqsum seq').toNat + byteSum P') % 256 = ((seqsum seq).toNat + byteSum P) % 256)

/-! ### The operation level -/

/-- R116, R120, R131, R154: the output bytes and the result of each operation, field by field. -/
def Obligations.OperationLevelResults : Prop :=
  ∀ (cfg : Config) (seq : Seq) (k len : Half) (B : List Byte),
    operation cfg ⟨.csum, seq, k, len⟩ B =
      ([], { ok := true, op := .csum, status := .ok, seq := seq
             csum := zext16 (checksum seq B), len := BitVec.ofNat 16 B.length }) ∧
    operation cfg ⟨.vfy, seq, k, len⟩ B =
      ([], { ok := verify k seq B, op := .vfy, status := .ok, seq := seq
             csum := zext16 (checksum seq B), len := BitVec.ofNat 16 B.length }) ∧
    operation cfg ⟨.enc, seq, k, len⟩ B =
      (if cfg.payloadMax.val < B.length then
        ([], { ok := false, op := .enc, status := .ePayload, seq := 0, csum := 0, len := 0 })
      else (encodeFrame seq B,
        { ok := true, op := .enc, status := .ok, seq := seq
          csum := zext16 (checksum seq B), len := BitVec.ofNat 16 (8 + B.length) })) ∧
    operation cfg ⟨.dec, seq, k, len⟩ B =
      (match decodeFrame B with
      | .ok p => (p.payload, { ok := verify p.checksum p.sequenceNumber p.payload, op := .dec, status := .ok, seq := p.sequenceNumber
                               csum := p.checksum, len := p.totalLength })
      | .error .short => ([], { ok := false, op := .dec, status := .eShort, seq := 0, csum := 0, len := 0 })
      | .error .length => ([], { ok := false, op := .dec, status := .eLength, seq := 0, csum := 0, len := 0 })
      | .error .payload => ([], { ok := false, op := .dec, status := .ePayload, seq := 0, csum := 0, len := 0 }))

/-- R181: each error status arises exactly from its cause, on an operation given `cmd.len` input bytes. -/
def Obligations.ErrorStatusCauses : Prop :=
  ∀ (cfg : Config) (c : Command) (B : List Byte), B.length = c.len.toNat →
    ((operation cfg c B).2.status = .eShort ↔ c.op = .dec ∧ c.len.toNat < 8) ∧
    ((operation cfg c B).2.status = .eLength ↔
      c.op = .dec ∧ 8 ≤ c.len.toNat ∧ memRead B 2 2 ≠ some c.len.toNat) ∧
    ((operation cfg c B).2.status = .ePayload ↔ c.op = .enc ∧ cfg.payloadMax.val < c.len.toNat) ∧
    ((operation cfg c B).2.status ≠ .ok → operation cfg c B =
      ([], { ok := false, op := c.op, status := (operation cfg c B).2.status, seq := 0, csum := 0, len := 0 }))

/-- The one sequence of transfers of an operation (R48) carries its input bytes on IN, its output bytes with the marker
of R59 on OUT, its result on RES, and has the length of R225. -/
def Obligations.TransfersOfAnOperation : Prop :=
  ∀ (cfg : Config) (c : Command) (B : List Byte), B.length = c.len.toNat →
    inBytes (operationTransfers cfg c B) = B ∧
    outWords (operationTransfers cfg c B) = markLast (operation cfg c B).1 ∧
    resWords (operationTransfers cfg c B) = [(operation cfg c B).2] ∧
    (operationTransfers cfg c B).length = 1 + B.length + (operation cfg c B).1.length + 1

/-! ### The steps of the operations -/

/-- R41: an idle engine accepts any command: every register but `buf` is loaded or cleared, nothing else changes (the
model's `inLeft` aside, on the host's side: log 20, PinsCarryTheTransferredWord). A busy engine never does. -/
def Obligations.CommandAcceptance : Prop :=
  (∀ (c : Command) (s : State), s.busy = false → ∃ n,
    exec c.toInstr s = .next { s with
      busy := true, rOp := c.op, rSeq := c.seq, rCsum := c.csum, rLen := c.len, icnt := 0, ocnt := 0,
      hdr := Vector.replicate 8 0, hold := 0, holdFull := false, inLeft := n,
      acc := if c.op = .dec then 0 else seqsum c.seq, trace := s.trace ++ [.cmd c] }) ∧
  ∀ (s t : State) (c : Command), s.busy = true → step s = .next t → t.trace ≠ s.trace ++ [.cmd c]

/-- R117: a `T_IN` of CSUM or VFY adds the byte into `acc` modulo 256 and counts it; every other register, and `buf`,
stays as it was. -/
def Obligations.CsumVfyInputStep : Prop :=
  ∀ (seq : Seq) (k len : Half) (s : State) (d : Byte) (rest : List Byte), s.busy = true →
    s.icnt.toNat < len.toNat → s.inQ = d :: rest →
    (s.latched = ⟨.csum, seq, k, len⟩ → exec (.csum seq k len) s = .next { s with
      acc := s.acc + d, icnt := s.icnt + 1, inQ := rest, trace := s.trace ++ [.inp d] }) ∧
    (s.latched = ⟨.vfy, seq, k, len⟩ → exec (.vfy seq k len) s = .next { s with
      acc := s.acc + d, icnt := s.icnt + 1, inQ := rest, trace := s.trace ++ [.inp d] })

/-- R118: with all its input consumed, CSUM answers its result: status `OK`, the sequence number echoed, the checksum in
the low byte, the length echoed, `ok = 1`; `busy <- 0` and no other register changes (R43). -/
def Obligations.CsumCompletes : Prop :=
  ∀ (seq : Seq) (k len : Half) (s : State), s.busy = true → s.latched = ⟨.csum, seq, k, len⟩ → s.icnt = len →
    s.holdFull = false → s.resReady = true →
    exec (.csum seq k len) s = .next { s with
      busy := false
      trace := s.trace ++ [.res { ok := true, op := .csum, status := .ok, seq := seq
                                  csum := BitVec.ofNat 16 s.acc.toNat, len := len }] }

/-- R119: with all its input consumed, VFY answers its result: the recomputed checksum, and `ok = 1` exactly when the
zero-extended accumulator is the operand; `busy <- 0` and no other register changes (R43). -/
def Obligations.VfyCompletes : Prop :=
  ∀ (seq : Seq) (k len : Half) (s : State), s.busy = true → s.latched = ⟨.vfy, seq, k, len⟩ → s.icnt = len →
    s.holdFull = false → s.resReady = true →
    exec (.vfy seq k len) s = .next { s with
      busy := false
      trace := s.trace ++ [.res { ok := decide (s.acc.toNat = k.toNat), op := .vfy, status := .ok, seq := seq
                                  csum := BitVec.ofNat 16 s.acc.toNat, len := len }] }

/-- R134: a `T_IN` of ENC writes `buf[icnt]` and sums the byte when the ENC is accepted, and only counts it when it is
refused. -/
def Obligations.EncInputStep : Prop :=
  ∀ (seq : Seq) (k len : Half) (s : State) (d : Byte) (rest : List Byte), s.busy = true →
    s.latched = ⟨.enc, seq, k, len⟩ → s.icnt.toNat < len.toNat → s.inQ = d :: rest →
    exec (.enc seq k len) s = .next (if len.toNat ≤ s.cfg.payloadMax.val then { s with
        buf := Memory.write s.buf s.icnt.toNat d, acc := s.acc + d, icnt := s.icnt + 1, inQ := rest,
        trace := s.trace ++ [.inp d] }
      else { s with icnt := s.icnt + 1, inQ := rest, trace := s.trace ++ [.inp d] })

/-- R135: a `T_OUT` of an accepted ENC with complete input carries frame byte `ocnt`, with `last` on frame byte
`7 + r_len`, and counts it; nothing else changes. -/
def Obligations.EncOutputStep : Prop :=
  ∀ (seq : Seq) (k len : Half) (s : State) (b : Byte), s.busy = true → s.latched = ⟨.enc, seq, k, len⟩ →
    len.toNat ≤ s.cfg.payloadMax.val → s.icnt = len → s.ocnt.toNat < 8 + len.toNat → s.outReady = true →
    (match s.ocnt.toNat with
      | 0 => b = 0
      | 1 => b = s.acc
      | 2 => b.toNat = (8 + len.toNat) / 256
      | 3 => b.toNat = (8 + len.toNat) % 256
      | 4 => b.toNat = seq.toNat / 2 ^ 24
      | 5 => b.toNat = seq.toNat / 2 ^ 16 % 256
      | 6 => b.toNat = seq.toNat / 2 ^ 8 % 256
      | 7 => b.toNat = seq.toNat % 256
      | j + 8 => Memory.read s.buf j = some b) →
    exec (.enc seq k len) s = .next { s with
      ocnt := s.ocnt + 1, trace := s.trace ++ [.out b (decide (s.ocnt.toNat = 7 + len.toNat))] }

/-- R136: the result of ENC, accepted (the checksum and the total length as emitted) and refused (`E_PAYLOAD` and zeros);
`busy <- 0` and no other register changes (R43). -/
def Obligations.EncCompletes : Prop :=
  ∀ (seq : Seq) (k len : Half) (s : State), s.busy = true → s.latched = ⟨.enc, seq, k, len⟩ → s.icnt = len →
    s.holdFull = false → s.resReady = true →
    (len.toNat ≤ s.cfg.payloadMax.val → s.ocnt.toNat = 8 + len.toNat →
      exec (.enc seq k len) s = .next { s with
        busy := false
        trace := s.trace ++ [.res { ok := true, op := .enc, status := .ok, seq := seq
                                    csum := BitVec.ofNat 16 s.acc.toNat, len := 8 + len }] }) ∧
    (s.cfg.payloadMax.val < len.toNat →
      exec (.enc seq k len) s = .next { s with
        busy := false
        trace := s.trace ++ [.res { ok := false, op := .enc, status := .ePayload, seq := 0, csum := 0, len := 0 }] })

/-- R158: a `T_IN` of DEC: a header byte goes to `hdr[icnt]` and bytes 4 to 7 are summed; a payload byte of a matching
frame goes to `hold` and is summed; every other byte is drained; the byte is counted on every path. -/
def Obligations.DecInputStep : Prop :=
  ∀ (seq : Seq) (k len : Half) (s : State) (d : Byte) (rest : List Byte), s.busy = true →
    s.latched = ⟨.dec, seq, k, len⟩ → s.icnt.toNat < len.toNat → ¬ (decPass s = true ∧ s.holdFull = true) →
    s.inQ = d :: rest →
    exec (.dec seq k len) s = .next { (if 8 ≤ len.toNat then
        if s.icnt.toNat < 8 then { s with
          hdr := s.hdr.setIfInBounds s.icnt.toNat d, acc := if 4 ≤ s.icnt.toNat then s.acc + d else s.acc }
        else if s.hdr[2].toNat * 256 + s.hdr[3].toNat = len.toNat then { s with
          hold := d, holdFull := true, acc := s.acc + d }
        else s
      else s) with icnt := s.icnt + 1, inQ := rest, trace := s.trace ++ [.inp d] }

/-- R159: a `T_OUT` of DEC carries the byte in `hold`, with `last` on output byte `r_len - 9`; `hold_full <- 0` and the
byte is counted; nothing else changes. The invariant rules out the states with `hold_full` and no pass-through. -/
def Obligations.DecOutputStep : Prop :=
  ∀ (seq : Seq) (k len : Half) (s : State), Inv s → s.busy = true → s.latched = ⟨.dec, seq, k, len⟩ →
    s.holdFull = true → s.outReady = true →
    9 ≤ len.toNat ∧
    exec (.dec seq k len) s = .next { s with
      holdFull := false, ocnt := s.ocnt + 1,
      trace := s.trace ++ [.out s.hold (decide (s.ocnt.toNat = len.toNat - 9))] }

/-- R160: the result of DEC: `E_SHORT`, `E_LENGTH`, or the decoded fields with `ok = 1` exactly when the 16-bit checksum
field is the zero-extended accumulator; `busy <- 0` and no other register changes (R43). -/
def Obligations.DecCompletes : Prop :=
  ∀ (seq : Seq) (k len : Half) (s : State), s.busy = true → s.latched = ⟨.dec, seq, k, len⟩ → s.icnt = len →
    s.holdFull = false → s.resReady = true →
    exec (.dec seq k len) s = .next { s with
      busy := false
      trace := s.trace ++ [.res (
        if len.toNat < 8 then { ok := false, op := .dec, status := .eShort, seq := 0, csum := 0, len := 0 }
        else if s.hdr[2].toNat * 256 + s.hdr[3].toNat ≠ len.toNat then
          { ok := false, op := .dec, status := .eLength, seq := 0, csum := 0, len := 0 }
        else { ok := decide (s.hdr[0].toNat * 256 + s.hdr[1].toNat = s.acc.toNat), op := .dec, status := .ok
               seq := BitVec.ofNat 32
                 (s.hdr[4].toNat * 2 ^ 24 + s.hdr[5].toNat * 2 ^ 16 + s.hdr[6].toNat * 2 ^ 8 + s.hdr[7].toNat)
               csum := BitVec.ofNat 16 (s.hdr[0].toNat * 256 + s.hdr[1].toNat)
               len := len })] }

/-- R95, R2: the frame-header row is not an operation: it is refused by name in every state, and so is a header word
offered to an idle engine. -/
def Obligations.FrameRowIsNoOperation : Prop :=
  (∀ (k len : Half) (seq : Seq) (s : State), exec (.frame k len seq) s = .refused .notAnOperation) ∧
  ∀ (h : BitVec 64) (rest : List Offer) (s : State), rstNow s = false → s.busy = false →
    s.cmdQ = .header h :: rest → step s = .refused .notAnOperation

/-- A command that is not the one in progress waits (R29, V53): its meaning stops as busy, and `step` runs the command in
progress instead. The stop's name is the model's. -/
def Obligations.OtherCommandWaitsWhileBusy : Prop :=
  ∀ (c : Command) (s : State), s.busy = true → s.latched ≠ c →
    exec c.toInstr s = .fault .engineBusy ∧ step s ≠ .fault .engineBusy

/-! ### Frames -/

/-- CSUM and VFY while busy write no register but `acc`, `icnt` and `busy`, and no byte of `buf` (R117, R43). -/
def Obligations.CsumVfyFrame : Prop :=
  ∀ (i : Instr) (c : Command) (s t : State), i.command? = some c → c.op = .csum ∨ c.op = .vfy → s.busy = true →
    exec i s = .next t →
    t.cfg = s.cfg ∧ t.rOp = s.rOp ∧ t.rSeq = s.rSeq ∧ t.rCsum = s.rCsum ∧ t.rLen = s.rLen ∧ t.ocnt = s.ocnt ∧
    t.hdr = s.hdr ∧ t.hold = s.hold ∧ t.holdFull = s.holdFull ∧ t.cmdQ = s.cmdQ ∧ t.inLeft = s.inLeft ∧
    t.outReady = s.outReady ∧ t.resReady = s.resReady ∧ t.rstPlan = s.rstPlan ∧ ∀ a, Memory.read t.buf a = Memory.read s.buf a

/-- ENC while busy writes no register but `acc`, `icnt`, `ocnt` and `busy`; it stores to `buf` only at address `icnt`, in
the `T_IN` of an accepted ENC, and every other form of it stores nothing (R134, R135, R43). -/
def Obligations.EncFrame : Prop :=
  ∀ (seq : Seq) (k len : Half) (s t : State), s.busy = true → exec (.enc seq k len) s = .next t →
    (t.cfg = s.cfg ∧ t.rOp = s.rOp ∧ t.rSeq = s.rSeq ∧ t.rCsum = s.rCsum ∧ t.rLen = s.rLen ∧ t.hdr = s.hdr ∧
      t.hold = s.hold ∧ t.holdFull = s.holdFull ∧ t.cmdQ = s.cmdQ ∧ t.inLeft = s.inLeft ∧
      t.outReady = s.outReady ∧ t.resReady = s.resReady ∧ t.rstPlan = s.rstPlan) ∧
    (∀ a, a ≠ s.icnt.toNat → Memory.read t.buf a = Memory.read s.buf a) ∧
    (¬ (enIn s = true ∧ encOk s = true) → ∀ a, Memory.read t.buf a = Memory.read s.buf a)

/-- DEC while busy writes no latched operand and no byte of `buf`; `hdr` changes only at index `icnt`, below 8 (R158,
R159, R43). -/
def Obligations.DecFrame : Prop :=
  ∀ (seq : Seq) (k len : Half) (s t : State), s.busy = true → exec (.dec seq k len) s = .next t →
    t.cfg = s.cfg ∧ t.rOp = s.rOp ∧ t.rSeq = s.rSeq ∧ t.rCsum = s.rCsum ∧ t.rLen = s.rLen ∧ t.cmdQ = s.cmdQ ∧
    t.inLeft = s.inLeft ∧ t.outReady = s.outReady ∧ t.resReady = s.resReady ∧ t.rstPlan = s.rstPlan ∧
    (∀ j, (h : j < 8) → j ≠ s.icnt.toNat → t.hdr[j] = s.hdr[j]) ∧
    (enIn s = false → t.hdr = s.hdr ∧ t.hold = s.hold ∧ t.acc = s.acc ∧ t.icnt = s.icnt) ∧
    ∀ a, Memory.read t.buf a = Memory.read s.buf a

/-! ### A step of the machine -/

/-- An idle engine with a word offered and no reset due runs the instruction the word decodes to, with the word taken off
CMD and one transfer counted off the plan of resets. -/
def Obligations.StepRunsOfferedInstruction : Prop :=
  ∀ (s : State) (o : Offer) (rest : List Offer) (i : Instr), rstNow s = false → s.busy = false →
    s.cmdQ = o :: rest → decodeOffer o = i →
    step s = exec i { s with cmdQ := rest, rstPlan := s.rstPlan.modifyHead (· - 1) }

/-- A busy engine with no reset due runs the command it latched, whatever is offered on CMD (R30, R64). -/
def Obligations.StepContinuesLatchedCommand : Prop :=
  ∀ s : State, rstNow s = false → s.busy = true →
    step s = exec s.latched.toInstr { s with rstPlan := s.rstPlan.modifyHead (· - 1) }

/-- A word of the opcode table placed for the next step is the instruction that step runs. -/
def Obligations.PlacedTableWordRuns : Prop :=
  ∀ (s : State) (nbits w : Nat) (i : Instr), decodeTableWord nbits w = some i →
    step (s.withFetchWord nbits w) = exec i { s with
      busy := false, rstPlan := (s.rstPlan.dropWhile (· == 0)).modifyHead (· - 1) }

/-- R210: a reset due is taken in every state, before any channel transfer: every register takes its reset value, `buf`
is not touched, the unconsumed input stays with the host and no result is produced (R212). What the host may take
back after it, the model's `inLeft` (log 20), is said by PinsCarryTheTransferredWord. -/
def Obligations.ResetStep : Prop :=
  ∀ (s : State) (rest : List Nat), s.rstPlan = 0 :: rest → ∃ n,
    step s = .next { s with
      busy := false, rOp := .enc, rSeq := 0, rCsum := 0, rLen := 0, acc := 0, icnt := 0, ocnt := 0,
      hdr := Vector.replicate 8 0, hold := 0, holdFull := false, inLeft := n, rstPlan := rest, trace := s.trace ++ [.rst] }

/-- R47: the registers after reset, no element of `buf` readable, and the engine idle: `en_cmd` true, the others false. -/
def Obligations.ResetStateValues : Prop :=
  (State.reset.busy = false ∧ opCode State.reset.rOp = 0 ∧ State.reset.rSeq = 0 ∧ State.reset.rCsum = 0 ∧
    State.reset.rLen = 0 ∧ State.reset.acc = 0 ∧ State.reset.icnt = 0 ∧ State.reset.ocnt = 0 ∧
    (∀ j, (h : j < 8) → State.reset.hdr[j] = 0) ∧ State.reset.hold = 0 ∧ State.reset.holdFull = false ∧
    (∀ a, Memory.read State.reset.buf a = none)) ∧
  enCmd State.reset = true ∧ enIn State.reset = false ∧ enOut State.reset = false ∧ enRes State.reset = false

/-- R211: while a reset is applied the engine takes part in no channel; with no further reset due, after it the engine is
ready for a command and for nothing else. -/
def Obligations.PinsAroundReset : Prop :=
  ∀ s : State, rstNow s = true →
    (cmdReady s = false ∧ inReady s = false ∧ outValid s = false ∧ resValid s = false) ∧
    ∃ t, step s = .next t ∧ (rstNow t = false →
      cmdReady t = true ∧ inReady t = false ∧ outValid t = false ∧ resValid t = false)

/-- R57, R56, R58, R135, R159: a transfer carries the word its producer offers. On CMD and IN that is the first word on
the host's side, which it takes with it, and nothing else is taken; on OUT and RES it is the word on the output pins,
computed from the registers before it. A reset takes no word; after it the input still offered may be taken back, after a
command none (R212; the model's `inLeft`, log 20). -/
def Obligations.PinsCarryTheTransferredWord : Prop :=
  ∀ s t : State, step s = .next t →
    (∀ c, t.trace = s.trace ++ [.cmd c] →
      s.cmdQ = .command (encodeCommand c) :: t.cmdQ ∧ t.inQ = s.inQ ∧ t.inLeft = 0) ∧
    (∀ d, t.trace = s.trace ++ [.inp d] → s.inQ = d :: t.inQ ∧ t.cmdQ = s.cmdQ ∧ t.inLeft = s.inLeft) ∧
    (∀ b last, t.trace = s.trace ++ [.out b last] →
      outPins s = some (b, last) ∧ t.inQ = s.inQ ∧ t.cmdQ = s.cmdQ ∧ t.inLeft = s.inLeft) ∧
    (∀ r, t.trace = s.trace ++ [.res r] →
      resPins s = some r ∧ t.inQ = s.inQ ∧ t.cmdQ = s.cmdQ ∧ t.inLeft = s.inLeft) ∧
    (t.trace = s.trace ++ [.rst] → t.inQ = s.inQ ∧ t.cmdQ = s.cmdQ ∧ t.inLeft = s.inQ.length)

/-- R57: on each channel a transfer happens exactly when its `valid` and its `ready` are both 1 and `rst` is 0, and a reset
exactly when `rst` is 1. -/
def Obligations.TransferHappensOnValidAndReady : Prop :=
  ∀ s t : State, Inv s → step s = .next t →
    ((∃ c, t.trace = s.trace ++ [.cmd c]) ↔ cmdValid s = true ∧ cmdReady s = true) ∧
    ((∃ d, t.trace = s.trace ++ [.inp d]) ↔ inValid s = true ∧ inReady s = true) ∧
    ((∃ b last, t.trace = s.trace ++ [.out b last]) ↔ outValid s = true ∧ s.outReady = true) ∧
    ((∃ r, t.trace = s.trace ++ [.res r]) ↔ resValid s = true ∧ s.resReady = true) ∧
    (t.trace = s.trace ++ [.rst] ↔ rstNow s = true)

/-- R184: every result word names its operation, and when its status is not `OK` every other field is 0. -/
def Obligations.ErrorResultsAreZero : Prop :=
  ∀ (s t : State) (r : Result), step s = .next t → t.trace = s.trace ++ [.res r] →
    r.op = s.rOp ∧ (r.status ≠ .ok → r.ok = false ∧ r.seq = 0 ∧ r.csum = 0 ∧ r.len = 0)

/-! ### Invariants -/

/-- The engine invariant holds after reset. -/
def Obligations.InvariantAtReset : Prop := Inv State.reset ∧ Ordered State.reset

/-- Every step of the machine and every move of the host keeps the engine invariant. -/
def Obligations.InvariantKept : Prop :=
  ∀ s : State, Inv s → (∀ t, step s = .next t → Inv t) ∧ ∀ m, Inv (hostMove m s)

/-- Every step keeps the transfers well ordered (R62): commands and results alternate, input and output only in between,
never more than `cmd.len` input bytes, ENC's output after all its input, DEC's alternating with it, `last` on the final
output byte only. -/
def Obligations.TransfersStayOrdered : Prop :=
  ∀ s t : State, Inv s → Ordered s → step s = .next t → Ordered t

/-- R39(a), (b), (f): while busy exactly one of `en_in`, `en_out`, `en_res` is true and `en_cmd` is not; while idle
exactly `en_cmd` is. -/
def Obligations.ExactlyOneChannelEnabled : Prop :=
  ∀ s : State, Inv s →
    (s.busy = true → enCmd s = false ∧
      ((enIn s = true ∧ enOut s = false ∧ enRes s = false) ∨ (enIn s = false ∧ enOut s = true ∧ enRes s = false) ∨
       (enIn s = false ∧ enOut s = false ∧ enRes s = true))) ∧
    (s.busy = false → enCmd s = true ∧ enIn s = false ∧ enOut s = false ∧ enRes s = false)

/-- R39(c), R222: the engine is never stuck by itself: a step happens exactly when a reset is due or the host takes part
in the enabled channel; otherwise the stop names what the host withholds. -/
def Obligations.EngineNeverStuckByItself : Prop :=
  ∀ s : State, Inv s →
    (rstNow s = true ∨ hostTakesPart s = true → ∃ t, step s = .next t) ∧
    (rstNow s = false → hostTakesPart s = false →
      (s.busy = false ∧ s.cmdQ = [] ∧ step s = .fault .quiescent) ∨
      (s.busy = false ∧ s.cmdQ ≠ [] ∧ step s = .refused .notAnOperation) ∨
      (enIn s = true ∧ s.inQ = [] ∧ step s = .fault .inputStarved) ∨
      (enOut s = true ∧ s.outReady = false ∧ step s = .fault .outputRefused) ∨
      (enRes s = true ∧ s.resReady = false ∧ step s = .fault .resultRefused))

/-- R33, R32: a channel transfer of a busy engine advances exactly one of the two counters by exactly 1, without wrapping,
or ends the operation and advances none; the latched command stays. -/
def Obligations.CountersAdvanceByOne : Prop :=
  ∀ s t : State, Inv s → s.busy = true → rstNow s = false → step s = .next t →
    t.latched = s.latched ∧
    ((t.busy = true ∧ t.icnt.toNat = s.icnt.toNat + 1 ∧ t.ocnt = s.ocnt) ∨
     (t.busy = true ∧ t.icnt = s.icnt ∧ t.ocnt.toNat = s.ocnt.toNat + 1) ∨
     (t.busy = false ∧ t.icnt = s.icnt ∧ t.ocnt = s.ocnt))

/-! ### The host -/

/-- R226, R57: a move of the host changes no register of the engine, no byte of `buf`, no transfer already made and no
output pin, unless it brings a reset now. It takes back no command word offered, and of the input bytes offered only
those left over at a reset (R212); every other word stays offered, unchanged and in its place. That all of the left-over
bytes go at once is the model's choice (log 20). -/
def Obligations.HostMovesLeaveTheEngineAlone : Prop :=
  ∀ (m : HostMove) (s : State),
    hostMove m s = { s with
      cmdQ := (hostMove m s).cmdQ, inQ := (hostMove m s).inQ, inLeft := (hostMove m s).inLeft
      outReady := (hostMove m s).outReady, resReady := (hostMove m s).resReady, rstPlan := (hostMove m s).rstPlan } ∧
    (rstNow (hostMove m s) = rstNow s →
      cmdReady (hostMove m s) = cmdReady s ∧ inReady (hostMove m s) = inReady s ∧
      outValid (hostMove m s) = outValid s ∧ resValid (hostMove m s) = resValid s ∧
      outPins (hostMove m s) = outPins s ∧ resPins (hostMove m s) = resPins s) ∧
    s.cmdQ <+: (hostMove m s).cmdQ ∧ s.inQ.drop s.inLeft <:+: (hostMove m s).inQ ∧
    (m ≠ .withdrawInput ∨ s.inLeft = 0 → s.inQ <+: (hostMove m s).inQ) ∧
    (hostMove .withdrawInput s).inQ = s.inQ.drop s.inLeft

/-- R224, R226: words offered early or in addition wait and change nothing: the step that happens is the same step. When
it is a reset, the additional byte too is one the host may take back after it (the model's `inLeft`, log 20). -/
def Obligations.EarlyOffersWait : Prop :=
  ∀ (s t : State), step s = .next t →
    (∀ w, step (hostMove (.offer w) s) = .next (hostMove (.offer w) t)) ∧
    (∀ d, step (hostMove (.supply d) s) = .next { hostMove (.supply d) t with
      inLeft := if rstNow s then t.inLeft + 1 else t.inLeft })

/-- R46, R20: no state leaks. Idle states that agree on the host's side are alike whatever their registers and `buf`
hold, and alike states take alike steps: both go on to alike states with the same transfer, or both stop for the same
reason. -/
def Obligations.NothingLeaksBetweenOperations : Prop :=
  (∀ s t : State, s.busy = false →
    t = { s with
      rOp := t.rOp, rSeq := t.rSeq, rCsum := t.rCsum, rLen := t.rLen, acc := t.acc, icnt := t.icnt, ocnt := t.ocnt,
      hdr := t.hdr, hold := t.hold, holdFull := t.holdFull, buf := t.buf } → Alike s t) ∧
  ∀ s t : State, Alike s t → AlikeOutcome (step s) (step t)

/-! ### The two levels -/

/-- R48: from any idle state, with the command and its `cmd.len` input bytes offered, a host that accepts everything and
no reset, the run of the operation makes exactly its one sequence of transfers and ends idle, with the surplus still
offered. -/
def Obligations.OneRunPerOperation : Prop :=
  ∀ (c : Command) (B rest : List Byte) (q : List Offer) (s : State), s.busy = false →
    s.cmdQ = .command (encodeCommand c) :: q → s.inQ = B ++ rest → B.length = c.len.toNat → s.outReady = true →
    s.resReady = true → s.rstPlan = [] →
    ∃ t, Host.Core.run core (1 + B.length + (operation s.cfg c B).1.length + 1) s = .next t ∧
      t.trace = s.trace ++ operationTransfers s.cfg c B ∧ t.busy = false ∧ t.cmdQ = q ∧ t.inQ = rest ∧
      t.cfg = s.cfg ∧ t.outReady = true ∧ t.resReady = true ∧ t.rstPlan = []

/-- R40, R11: whatever the timing of the host's moves among the steps (`Feeds`), the transfers made are the first of the
operation's one sequence, as many as steps were taken. The run can always be completed, whatever the host has done, and
completed it ends idle with the operation-level result as its last transfer, its OUT transfers carry the operation-level
output bytes in order with `last = 1` exactly on the last one, and it consumed exactly its input. -/
def Obligations.TransferLevelRefinesOperationLevel : Prop :=
  ∀ (c : Command) (B more rest : List Byte) (q : List Offer) (s t : State) (es : List RunEvent),
    Feeds c B more rest q s es → runEvents es s = .next t →
    stepCount es ≤ (operationTransfers s.cfg c B).length →
    t.trace = s.trace ++ (operationTransfers s.cfg c B).take (stepCount es) ∧
    (∃ u, runEvents (completion more (stepCount es) (operationTransfers s.cfg c B).length) t = .next u ∧
      u.busy = false ∧ u.trace = s.trace ++ operationTransfers s.cfg c B ∧ u.cmdQ = q ∧ u.inQ = rest) ∧
    (stepCount es = (operationTransfers s.cfg c B).length →
      ∃ ts, t.trace = s.trace ++ ts ∧ t.busy = false ∧ t.cmdQ = q ∧ t.inQ ++ more = rest ∧ inBytes ts = B ∧
        outWords ts = markLast (operation s.cfg c B).1 ∧ ts.getLast? = some (.res (operation s.cfg c B).2) ∧
        resWords ts = [(operation s.cfg c B).2])

/-- R215, R62(a): a program run from an idle state ends idle after its last result, and what is observed is the list of
operation-level output bytes and results, one pair per operation, in order. -/
def Obligations.ProgramObservation : Prop :=
  ∀ (p : Program) (rest : List Byte) (q : List Offer) (s : State), p.fed → s.busy = false →
    s.cmdQ = p.offers ++ q → s.inQ = p.input ++ rest → s.outReady = true → s.resReady = true → s.rstPlan = [] →
    ∃ (t : State) (ts : List Transfer), Host.Core.run core (p.steps s.cfg) s = .next t ∧ t.busy = false ∧
      t.trace = s.trace ++ ts ∧ observe none ts = (p.observation s.cfg).map (fun x => (x.1, some x.2)) ∧
      t.cmdQ = q ∧ t.inQ = rest

/-- R212: a reset after any number of transfers short of the operation's end aborts it: the transfers made so far stay
made, no result follows, the engine is idle, and the input bytes not yet consumed stay with the host. Observed is the
partial output with no result (U8; its form as a pair is the model's choice, log 26). -/
def Obligations.ResetAbortsAtAnyPoint : Prop :=
  ∀ (c : Command) (B rest : List Byte) (q : List Offer) (s : State) (n : Nat), s.busy = false →
    s.cmdQ = .command (encodeCommand c) :: q → s.inQ = B ++ rest → B.length = c.len.toNat → s.outReady = true →
    s.resReady = true → s.rstPlan = [n] → 0 < n → n < (operationTransfers s.cfg c B).length →
    ∃ t, Host.Core.run core (n + 1) s = .next t ∧
      t.trace = s.trace ++ (operationTransfers s.cfg c B).take n ++ [.rst] ∧ t.busy = false ∧
      resWords ((operationTransfers s.cfg c B).take n) = [] ∧
      observe none ((operationTransfers s.cfg c B).take n ++ [.rst]) =
        [((outWords ((operationTransfers s.cfg c B).take n)).map Prod.fst, none)] ∧
      t.inQ = (B ++ rest).drop (inBytes ((operationTransfers s.cfg c B).take n)).length ∧ t.cmdQ = q

/-- R137: the properties of ENC. (a) The frame has `8 + |P|` bytes, from 8 to `8 + PAYLOAD_MAX` when accepted. (b) Decoding
it succeeds with the sequence number, the total length and the payload, the empty one too. (c) `encode` is injective:
bytes 4 to 7 give `seq` and bytes 8 onward give `P`. (d) The OUT bytes of every run of an accepted ENC are
`encode(r_seq, P)`, whatever the timing of the host's moves. -/
def Obligations.EncProperties : Prop :=
  (∀ (seq : Seq) (P : List Byte) (cfg : Config), (encodeFrame seq P).length = 8 + P.length ∧
    (P.length ≤ cfg.payloadMax.val →
      8 ≤ (encodeFrame seq P).length ∧ (encodeFrame seq P).length ≤ 8 + cfg.payloadMax.val)) ∧
  (∀ (seq : Seq) (P : List Byte), P.length ≤ 65527 → ∃ p, decodeFrame (encodeFrame seq P) = .ok p ∧
    p.sequenceNumber = seq ∧ p.totalLength.toNat = 8 + P.length ∧ p.payload = P) ∧
  (∀ (seq seq' : Seq) (P P' : List Byte), (encodeFrame seq P = encodeFrame seq' P' → seq = seq' ∧ P = P') ∧
    ((encodeFrame seq P).drop 4).take 4 = bytes32 seq ∧ (encodeFrame seq P).drop 8 = P) ∧
  ∀ (seq : Seq) (k len : Half) (P more rest : List Byte) (q : List Offer) (s t : State) (es : List RunEvent),
    Feeds ⟨.enc, seq, k, len⟩ P more rest q s es → len.toNat ≤ s.cfg.payloadMax.val → runEvents es s = .next t →
    stepCount es = (operationTransfers s.cfg ⟨.enc, seq, k, len⟩ P).length →
    ∃ ts, t.trace = s.trace ++ ts ∧ (outWords ts).map Prod.fst = encodeFrame t.rSeq P
end

