-- ==== Sys2Proof/Laws/Codec.lean ====
section
/-! SUPPORT. The small lemmas of the operation-level functions: lengths, sums, single fields. -/

namespace Sys2Proof.Machine

@[simp] theorem bytes16_length (v : Half) : (bytes16 v).length = 2 := rfl
@[simp] theorem bytes32_length (v : Seq) : (bytes32 v).length = 4 := rfl

@[simp] theorem byteSum_nil : byteSum [] = 0 := rfl
@[simp] theorem byteSum_cons (b : Byte) (P : List Byte) : byteSum (b :: P) = b.toNat + byteSum P := by
  simp [byteSum]
@[simp] theorem byteSum_append (P Q : List Byte) : byteSum (P ++ Q) = byteSum P + byteSum Q := by
  simp [byteSum]

@[simp] theorem accAdd_toNat (a d : Byte) : (accAdd a d).toNat = (a.toNat + d.toNat) % 256 := by
  simp [accAdd]

@[simp] theorem checksum_toNat (seq : Seq) (P : List Byte) :
    (checksum seq P).toNat = ((seqsum seq).toNat + byteSum P) % 256 := by
  simp [checksum]

@[simp] theorem zext16_toNat (c : Byte) : (zext16 c).toNat = c.toNat := by
  have := c.isLt
  simp only [zext16, BitVec.toNat_setWidth]
  omega

@[simp] theorem encodeFrame_length (seq : Seq) (P : List Byte) : (encodeFrame seq P).length = 8 + P.length := by
  simp [encodeFrame]; omega

/-- The eight header bytes of a frame ENC makes, then its payload. -/
theorem encodeFrame_eq (seq : Seq) (P : List Byte) :
    encodeFrame seq P =
      (zext16 (checksum seq P)).extractLsb' 8 8 :: (zext16 (checksum seq P)).extractLsb' 0 8 ::
      (BitVec.ofNat 16 (8 + P.length)).extractLsb' 8 8 :: (BitVec.ofNat 16 (8 + P.length)).extractLsb' 0 8 ::
      seq.extractLsb' 24 8 :: seq.extractLsb' 16 8 :: seq.extractLsb' 8 8 :: seq.extractLsb' 0 8 :: P := rfl

/-- A big-endian 16-bit field is its two bytes. -/
theorem be16_toNat (a b : Byte) : (be16 a b).toNat = a.toNat * 256 + b.toNat := by
  have ha := a.isLt
  have hb := b.isLt
  simp only [be16, BitVec.toNat_ofNat]
  omega

/-- A big-endian 32-bit field is its four bytes. -/
theorem be32_toNat (a b c d : Byte) :
    (be32 a b c d).toNat = a.toNat * 2 ^ 24 + b.toNat * 2 ^ 16 + c.toNat * 2 ^ 8 + d.toNat := by
  have ha := a.isLt
  have hb := b.isLt
  have hc := c.isLt
  have hd := d.isLt
  simp only [be32, BitVec.toNat_ofNat]
  omega

/-- Reading two bytes of a frame. -/
theorem memRead_two (F : List Byte) (o : Nat) (a b : Byte) (R : List Byte) (h : F.drop o = a :: b :: R) :
    memRead F o 2 = some (a.toNat * 256 + b.toNat) := by
  have hl : o + 2 ≤ F.length := by
    have := congrArg List.length h
    simp only [List.length_drop, List.length_cons] at this
    omega
  simp [memRead, hl, h, beNat]

/-- Reading four bytes of a frame. -/
theorem memRead_four (F : List Byte) (o : Nat) (a b c d : Byte) (R : List Byte) (h : F.drop o = a :: b :: c :: d :: R) :
    memRead F o 4 = some (((a.toNat * 256 + b.toNat) * 256 + c.toNat) * 256 + d.toNat) := by
  have hl : o + 4 ≤ F.length := by
    have := congrArg List.length h
    simp only [List.length_drop, List.length_cons] at this
    omega
  simp [memRead, hl, h, beNat]

/-- `decode` on a frame of at least 8 bytes: the length check is the only one left. -/
theorem decodeFrame_cons (a b c d e f g h : Byte) (P : List Byte) :
    decodeFrame (a :: b :: c :: d :: e :: f :: g :: h :: P) =
      if c.toNat * 256 + d.toNat = 8 + P.length then
        .ok { sequenceNumber := be32 e f g h, checksum := be16 a b, totalLength := be16 c d, payload := P }
      else .error .length := by
  have hl : (a :: b :: c :: d :: e :: f :: g :: h :: P).length = 8 + P.length := by
    simp only [List.length_cons]; omega
  have hq : be32 e f g h = BitVec.ofNat 32 (((e.toNat * 256 + f.toNat) * 256 + g.toNat) * 256 + h.toNat) := by
    have he := e.isLt
    have hf := f.isLt
    have hg := g.isLt
    have hh := h.isLt
    apply BitVec.eq_of_toNat_eq
    rw [be32_toNat, BitVec.toNat_ofNat]
    omega
  rw [decodeFrame, hl, if_neg (by omega), memRead_two _ 0 a b _ rfl, memRead_two _ 2 c d _ rfl,
    memRead_four _ 4 e f g h P rfl, hq]
  rfl

/-- `decode` fails on every shorter byte string (R152). -/
theorem decodeFrame_short (B : List Byte) (h : B.length < 8) : decodeFrame B = .error .short := by
  simp [decodeFrame, h]

/-- A byte string of at least 8 bytes is its header bytes and the rest. -/
theorem exists_header_of_le_length (B : List Byte) (h : 8 ≤ B.length) :
    ∃ a b c d e f g k P, B = a :: b :: c :: d :: e :: f :: g :: k :: P := by
  match B, h with
  | a :: b :: c :: d :: e :: f :: g :: k :: P, _ => exact ⟨a, b, c, d, e, f, g, k, P, rfl⟩

/-- Everything `decode` can answer, each from its own condition on `B` (R150, R162(a)). -/
theorem decodeFrame_cases (B : List Byte) :
    (B.length < 8 ∧ decodeFrame B = .error .short) ∨
    (8 ≤ B.length ∧ memRead B 2 2 ≠ some B.length ∧ decodeFrame B = .error .length) ∨
    (8 ≤ B.length ∧ memRead B 2 2 = some B.length ∧ ∃ p, decodeFrame B = .ok p) := by
  by_cases h : B.length < 8
  · exact .inl ⟨h, decodeFrame_short B h⟩
  · obtain ⟨a, b, c, d, e, f, g, k, P, rfl⟩ := exists_header_of_le_length B (by omega)
    have hl : (a :: b :: c :: d :: e :: f :: g :: k :: P).length = 8 + P.length := by
      simp only [List.length_cons]; omega
    rw [memRead_two _ 2 c d _ rfl, decodeFrame_cons, hl]
    by_cases ht : c.toNat * 256 + d.toNat = 8 + P.length
    · exact .inr (.inr ⟨by omega, by rw [ht], _, if_pos ht⟩)
    · exact .inr (.inl ⟨by omega, by simpa using ht, if_neg ht⟩)

/-- What a successful `decode` says: the header bytes spell the packet's fields and the rest is its payload (R150), which
the OUT bytes of the DEC carry (R162(d)). -/
theorem decodeFrame_ok (B : List Byte) (p : Packet) (h : decodeFrame B = .ok p) :
    ∃ a b c d e f g k, B = a :: b :: c :: d :: e :: f :: g :: k :: p.payload ∧
      p.checksum = be16 a b ∧ p.totalLength = be16 c d ∧ p.sequenceNumber = be32 e f g k ∧
      c.toNat * 256 + d.toNat = 8 + p.payload.length := by
  have hn : ¬ B.length < 8 := by
    intro hs
    rw [decodeFrame_short B hs] at h
    cases h
  obtain ⟨a, b, c, d, e, f, g, k, P, rfl⟩ := exists_header_of_le_length B (by omega)
  rw [decodeFrame_cons] at h
  split at h
  · next ht =>
    cases h
    exact ⟨a, b, c, d, e, f, g, k, rfl, rfl, rfl, rfl, ht⟩
  · cases h

@[simp] theorem markLast_length (P : List Byte) : (markLast P).length = P.length := by
  induction P with
  | nil => rfl
  | cons b P ih => cases P with
    | nil => rfl
    | cons b' P => simpa [markLast] using ih

@[simp] theorem markLast_bytes (P : List Byte) : (markLast P).map (·.1) = P := by
  induction P with
  | nil => rfl
  | cons b P ih => cases P with
    | nil => rfl
    | cons b' P => simpa [markLast] using ih

end Sys2Proof.Machine
end

