-- ==== Sys2Proof/Laws/State.lean ====
section
/-! SUPPORT. One lemma per field per update of the state, each true by rfl, so that no proof unfolds a record update. -/

namespace Sys2Proof.Machine

/-! ### addAcc -/

@[simp] theorem State.addAcc_cfg (s : State) (d : Byte) : (s.addAcc d).cfg = s.cfg := rfl
@[simp] theorem State.addAcc_busy (s : State) (d : Byte) : (s.addAcc d).busy = s.busy := rfl
@[simp] theorem State.addAcc_rOp (s : State) (d : Byte) : (s.addAcc d).rOp = s.rOp := rfl
@[simp] theorem State.addAcc_rSeq (s : State) (d : Byte) : (s.addAcc d).rSeq = s.rSeq := rfl
@[simp] theorem State.addAcc_rCsum (s : State) (d : Byte) : (s.addAcc d).rCsum = s.rCsum := rfl
@[simp] theorem State.addAcc_rLen (s : State) (d : Byte) : (s.addAcc d).rLen = s.rLen := rfl
@[simp] theorem State.addAcc_acc (s : State) (d : Byte) : (s.addAcc d).acc = accAdd s.acc d := rfl
@[simp] theorem State.addAcc_icnt (s : State) (d : Byte) : (s.addAcc d).icnt = s.icnt := rfl
@[simp] theorem State.addAcc_ocnt (s : State) (d : Byte) : (s.addAcc d).ocnt = s.ocnt := rfl
@[simp] theorem State.addAcc_hdr (s : State) (d : Byte) : (s.addAcc d).hdr = s.hdr := rfl
@[simp] theorem State.addAcc_hold (s : State) (d : Byte) : (s.addAcc d).hold = s.hold := rfl
@[simp] theorem State.addAcc_holdFull (s : State) (d : Byte) : (s.addAcc d).holdFull = s.holdFull := rfl
@[simp] theorem State.addAcc_buf (s : State) (d : Byte) : (s.addAcc d).buf = s.buf := rfl
@[simp] theorem State.addAcc_cmdQ (s : State) (d : Byte) : (s.addAcc d).cmdQ = s.cmdQ := rfl
@[simp] theorem State.addAcc_inQ (s : State) (d : Byte) : (s.addAcc d).inQ = s.inQ := rfl
@[simp] theorem State.addAcc_inLeft (s : State) (d : Byte) : (s.addAcc d).inLeft = s.inLeft := rfl
@[simp] theorem State.addAcc_outReady (s : State) (d : Byte) : (s.addAcc d).outReady = s.outReady := rfl
@[simp] theorem State.addAcc_resReady (s : State) (d : Byte) : (s.addAcc d).resReady = s.resReady := rfl
@[simp] theorem State.addAcc_rstPlan (s : State) (d : Byte) : (s.addAcc d).rstPlan = s.rstPlan := rfl
@[simp] theorem State.addAcc_trace (s : State) (d : Byte) : (s.addAcc d).trace = s.trace := rfl

/-! ### writeBuf -/

@[simp] theorem State.writeBuf_cfg (s : State) (d : Byte) : (s.writeBuf d).cfg = s.cfg := rfl
@[simp] theorem State.writeBuf_busy (s : State) (d : Byte) : (s.writeBuf d).busy = s.busy := rfl
@[simp] theorem State.writeBuf_rOp (s : State) (d : Byte) : (s.writeBuf d).rOp = s.rOp := rfl
@[simp] theorem State.writeBuf_rSeq (s : State) (d : Byte) : (s.writeBuf d).rSeq = s.rSeq := rfl
@[simp] theorem State.writeBuf_rCsum (s : State) (d : Byte) : (s.writeBuf d).rCsum = s.rCsum := rfl
@[simp] theorem State.writeBuf_rLen (s : State) (d : Byte) : (s.writeBuf d).rLen = s.rLen := rfl
@[simp] theorem State.writeBuf_acc (s : State) (d : Byte) : (s.writeBuf d).acc = s.acc := rfl
@[simp] theorem State.writeBuf_icnt (s : State) (d : Byte) : (s.writeBuf d).icnt = s.icnt := rfl
@[simp] theorem State.writeBuf_ocnt (s : State) (d : Byte) : (s.writeBuf d).ocnt = s.ocnt := rfl
@[simp] theorem State.writeBuf_hdr (s : State) (d : Byte) : (s.writeBuf d).hdr = s.hdr := rfl
@[simp] theorem State.writeBuf_hold (s : State) (d : Byte) : (s.writeBuf d).hold = s.hold := rfl
@[simp] theorem State.writeBuf_holdFull (s : State) (d : Byte) : (s.writeBuf d).holdFull = s.holdFull := rfl
@[simp] theorem State.writeBuf_buf (s : State) (d : Byte) : (s.writeBuf d).buf = Memory.write s.buf s.icnt.toNat d := rfl
@[simp] theorem State.writeBuf_cmdQ (s : State) (d : Byte) : (s.writeBuf d).cmdQ = s.cmdQ := rfl
@[simp] theorem State.writeBuf_inQ (s : State) (d : Byte) : (s.writeBuf d).inQ = s.inQ := rfl
@[simp] theorem State.writeBuf_inLeft (s : State) (d : Byte) : (s.writeBuf d).inLeft = s.inLeft := rfl
@[simp] theorem State.writeBuf_outReady (s : State) (d : Byte) : (s.writeBuf d).outReady = s.outReady := rfl
@[simp] theorem State.writeBuf_resReady (s : State) (d : Byte) : (s.writeBuf d).resReady = s.resReady := rfl
@[simp] theorem State.writeBuf_rstPlan (s : State) (d : Byte) : (s.writeBuf d).rstPlan = s.rstPlan := rfl
@[simp] theorem State.writeBuf_trace (s : State) (d : Byte) : (s.writeBuf d).trace = s.trace := rfl

/-! ### writeHdr -/

@[simp] theorem State.writeHdr_cfg (s : State) (d : Byte) : (s.writeHdr d).cfg = s.cfg := rfl
@[simp] theorem State.writeHdr_busy (s : State) (d : Byte) : (s.writeHdr d).busy = s.busy := rfl
@[simp] theorem State.writeHdr_rOp (s : State) (d : Byte) : (s.writeHdr d).rOp = s.rOp := rfl
@[simp] theorem State.writeHdr_rSeq (s : State) (d : Byte) : (s.writeHdr d).rSeq = s.rSeq := rfl
@[simp] theorem State.writeHdr_rCsum (s : State) (d : Byte) : (s.writeHdr d).rCsum = s.rCsum := rfl
@[simp] theorem State.writeHdr_rLen (s : State) (d : Byte) : (s.writeHdr d).rLen = s.rLen := rfl
@[simp] theorem State.writeHdr_acc (s : State) (d : Byte) : (s.writeHdr d).acc = s.acc := rfl
@[simp] theorem State.writeHdr_icnt (s : State) (d : Byte) : (s.writeHdr d).icnt = s.icnt := rfl
@[simp] theorem State.writeHdr_ocnt (s : State) (d : Byte) : (s.writeHdr d).ocnt = s.ocnt := rfl
@[simp] theorem State.writeHdr_hdr (s : State) (d : Byte) : (s.writeHdr d).hdr = s.hdr.setIfInBounds s.icnt.toNat d := rfl
@[simp] theorem State.writeHdr_hold (s : State) (d : Byte) : (s.writeHdr d).hold = s.hold := rfl
@[simp] theorem State.writeHdr_holdFull (s : State) (d : Byte) : (s.writeHdr d).holdFull = s.holdFull := rfl
@[simp] theorem State.writeHdr_buf (s : State) (d : Byte) : (s.writeHdr d).buf = s.buf := rfl
@[simp] theorem State.writeHdr_cmdQ (s : State) (d : Byte) : (s.writeHdr d).cmdQ = s.cmdQ := rfl
@[simp] theorem State.writeHdr_inQ (s : State) (d : Byte) : (s.writeHdr d).inQ = s.inQ := rfl
@[simp] theorem State.writeHdr_inLeft (s : State) (d : Byte) : (s.writeHdr d).inLeft = s.inLeft := rfl
@[simp] theorem State.writeHdr_outReady (s : State) (d : Byte) : (s.writeHdr d).outReady = s.outReady := rfl
@[simp] theorem State.writeHdr_resReady (s : State) (d : Byte) : (s.writeHdr d).resReady = s.resReady := rfl
@[simp] theorem State.writeHdr_rstPlan (s : State) (d : Byte) : (s.writeHdr d).rstPlan = s.rstPlan := rfl
@[simp] theorem State.writeHdr_trace (s : State) (d : Byte) : (s.writeHdr d).trace = s.trace := rfl

/-! ### fillHold -/

@[simp] theorem State.fillHold_cfg (s : State) (d : Byte) : (s.fillHold d).cfg = s.cfg := rfl
@[simp] theorem State.fillHold_busy (s : State) (d : Byte) : (s.fillHold d).busy = s.busy := rfl
@[simp] theorem State.fillHold_rOp (s : State) (d : Byte) : (s.fillHold d).rOp = s.rOp := rfl
@[simp] theorem State.fillHold_rSeq (s : State) (d : Byte) : (s.fillHold d).rSeq = s.rSeq := rfl
@[simp] theorem State.fillHold_rCsum (s : State) (d : Byte) : (s.fillHold d).rCsum = s.rCsum := rfl
@[simp] theorem State.fillHold_rLen (s : State) (d : Byte) : (s.fillHold d).rLen = s.rLen := rfl
@[simp] theorem State.fillHold_acc (s : State) (d : Byte) : (s.fillHold d).acc = s.acc := rfl
@[simp] theorem State.fillHold_icnt (s : State) (d : Byte) : (s.fillHold d).icnt = s.icnt := rfl
@[simp] theorem State.fillHold_ocnt (s : State) (d : Byte) : (s.fillHold d).ocnt = s.ocnt := rfl
@[simp] theorem State.fillHold_hdr (s : State) (d : Byte) : (s.fillHold d).hdr = s.hdr := rfl
@[simp] theorem State.fillHold_hold (s : State) (d : Byte) : (s.fillHold d).hold = d := rfl
@[simp] theorem State.fillHold_holdFull (s : State) (d : Byte) : (s.fillHold d).holdFull = true := rfl
@[simp] theorem State.fillHold_buf (s : State) (d : Byte) : (s.fillHold d).buf = s.buf := rfl
@[simp] theorem State.fillHold_cmdQ (s : State) (d : Byte) : (s.fillHold d).cmdQ = s.cmdQ := rfl
@[simp] theorem State.fillHold_inQ (s : State) (d : Byte) : (s.fillHold d).inQ = s.inQ := rfl
@[simp] theorem State.fillHold_inLeft (s : State) (d : Byte) : (s.fillHold d).inLeft = s.inLeft := rfl
@[simp] theorem State.fillHold_outReady (s : State) (d : Byte) : (s.fillHold d).outReady = s.outReady := rfl
@[simp] theorem State.fillHold_resReady (s : State) (d : Byte) : (s.fillHold d).resReady = s.resReady := rfl
@[simp] theorem State.fillHold_rstPlan (s : State) (d : Byte) : (s.fillHold d).rstPlan = s.rstPlan := rfl
@[simp] theorem State.fillHold_trace (s : State) (d : Byte) : (s.fillHold d).trace = s.trace := rfl

/-! ### emptyHold -/

@[simp] theorem State.emptyHold_cfg (s : State) : (s.emptyHold).cfg = s.cfg := rfl
@[simp] theorem State.emptyHold_busy (s : State) : (s.emptyHold).busy = s.busy := rfl
@[simp] theorem State.emptyHold_rOp (s : State) : (s.emptyHold).rOp = s.rOp := rfl
@[simp] theorem State.emptyHold_rSeq (s : State) : (s.emptyHold).rSeq = s.rSeq := rfl
@[simp] theorem State.emptyHold_rCsum (s : State) : (s.emptyHold).rCsum = s.rCsum := rfl
@[simp] theorem State.emptyHold_rLen (s : State) : (s.emptyHold).rLen = s.rLen := rfl
@[simp] theorem State.emptyHold_acc (s : State) : (s.emptyHold).acc = s.acc := rfl
@[simp] theorem State.emptyHold_icnt (s : State) : (s.emptyHold).icnt = s.icnt := rfl
@[simp] theorem State.emptyHold_ocnt (s : State) : (s.emptyHold).ocnt = s.ocnt := rfl
@[simp] theorem State.emptyHold_hdr (s : State) : (s.emptyHold).hdr = s.hdr := rfl
@[simp] theorem State.emptyHold_hold (s : State) : (s.emptyHold).hold = s.hold := rfl
@[simp] theorem State.emptyHold_holdFull (s : State) : (s.emptyHold).holdFull = false := rfl
@[simp] theorem State.emptyHold_buf (s : State) : (s.emptyHold).buf = s.buf := rfl
@[simp] theorem State.emptyHold_cmdQ (s : State) : (s.emptyHold).cmdQ = s.cmdQ := rfl
@[simp] theorem State.emptyHold_inQ (s : State) : (s.emptyHold).inQ = s.inQ := rfl
@[simp] theorem State.emptyHold_inLeft (s : State) : (s.emptyHold).inLeft = s.inLeft := rfl
@[simp] theorem State.emptyHold_outReady (s : State) : (s.emptyHold).outReady = s.outReady := rfl
@[simp] theorem State.emptyHold_resReady (s : State) : (s.emptyHold).resReady = s.resReady := rfl
@[simp] theorem State.emptyHold_rstPlan (s : State) : (s.emptyHold).rstPlan = s.rstPlan := rfl
@[simp] theorem State.emptyHold_trace (s : State) : (s.emptyHold).trace = s.trace := rfl

/-! ### accept -/

@[simp] theorem State.accept_cfg (s : State) (c : Command) : (s.accept c).cfg = s.cfg := rfl
@[simp] theorem State.accept_busy (s : State) (c : Command) : (s.accept c).busy = true := rfl
@[simp] theorem State.accept_rOp (s : State) (c : Command) : (s.accept c).rOp = c.op := rfl
@[simp] theorem State.accept_rSeq (s : State) (c : Command) : (s.accept c).rSeq = c.seq := rfl
@[simp] theorem State.accept_rCsum (s : State) (c : Command) : (s.accept c).rCsum = c.csum := rfl
@[simp] theorem State.accept_rLen (s : State) (c : Command) : (s.accept c).rLen = c.len := rfl
@[simp] theorem State.accept_acc (s : State) (c : Command) : (s.accept c).acc = initialAcc c := rfl
@[simp] theorem State.accept_icnt (s : State) (c : Command) : (s.accept c).icnt = 0 := rfl
@[simp] theorem State.accept_ocnt (s : State) (c : Command) : (s.accept c).ocnt = 0 := rfl
@[simp] theorem State.accept_hdr (s : State) (c : Command) : (s.accept c).hdr = zeroHdr := rfl
@[simp] theorem State.accept_hold (s : State) (c : Command) : (s.accept c).hold = 0 := rfl
@[simp] theorem State.accept_holdFull (s : State) (c : Command) : (s.accept c).holdFull = false := rfl
@[simp] theorem State.accept_buf (s : State) (c : Command) : (s.accept c).buf = s.buf := rfl
@[simp] theorem State.accept_cmdQ (s : State) (c : Command) : (s.accept c).cmdQ = s.cmdQ := rfl
@[simp] theorem State.accept_inQ (s : State) (c : Command) : (s.accept c).inQ = s.inQ := rfl
@[simp] theorem State.accept_inLeft (s : State) (c : Command) : (s.accept c).inLeft = 0 := rfl
@[simp] theorem State.accept_outReady (s : State) (c : Command) : (s.accept c).outReady = s.outReady := rfl
@[simp] theorem State.accept_resReady (s : State) (c : Command) : (s.accept c).resReady = s.resReady := rfl
@[simp] theorem State.accept_rstPlan (s : State) (c : Command) : (s.accept c).rstPlan = s.rstPlan := rfl
@[simp] theorem State.accept_trace (s : State) (c : Command) : (s.accept c).trace = s.trace ++ [.cmd c] := rfl

/-! ### consume -/

@[simp] theorem State.consume_cfg (s : State) (d : Byte) (rest : List Byte) : (s.consume d rest).cfg = s.cfg := rfl
@[simp] theorem State.consume_busy (s : State) (d : Byte) (rest : List Byte) : (s.consume d rest).busy = s.busy := rfl
@[simp] theorem State.consume_rOp (s : State) (d : Byte) (rest : List Byte) : (s.consume d rest).rOp = s.rOp := rfl
@[simp] theorem State.consume_rSeq (s : State) (d : Byte) (rest : List Byte) : (s.consume d rest).rSeq = s.rSeq := rfl
@[simp] theorem State.consume_rCsum (s : State) (d : Byte) (rest : List Byte) : (s.consume d rest).rCsum = s.rCsum := rfl
@[simp] theorem State.consume_rLen (s : State) (d : Byte) (rest : List Byte) : (s.consume d rest).rLen = s.rLen := rfl
@[simp] theorem State.consume_acc (s : State) (d : Byte) (rest : List Byte) : (s.consume d rest).acc = s.acc := rfl
@[simp] theorem State.consume_icnt (s : State) (d : Byte) (rest : List Byte) : (s.consume d rest).icnt = s.icnt + 1 := rfl
@[simp] theorem State.consume_ocnt (s : State) (d : Byte) (rest : List Byte) : (s.consume d rest).ocnt = s.ocnt := rfl
@[simp] theorem State.consume_hdr (s : State) (d : Byte) (rest : List Byte) : (s.consume d rest).hdr = s.hdr := rfl
@[simp] theorem State.consume_hold (s : State) (d : Byte) (rest : List Byte) : (s.consume d rest).hold = s.hold := rfl
@[simp] theorem State.consume_holdFull (s : State) (d : Byte) (rest : List Byte) : (s.consume d rest).holdFull = s.holdFull := rfl
@[simp] theorem State.consume_buf (s : State) (d : Byte) (rest : List Byte) : (s.consume d rest).buf = s.buf := rfl
@[simp] theorem State.consume_cmdQ (s : State) (d : Byte) (rest : List Byte) : (s.consume d rest).cmdQ = s.cmdQ := rfl
@[simp] theorem State.consume_inQ (s : State) (d : Byte) (rest : List Byte) : (s.consume d rest).inQ = rest := rfl
@[simp] theorem State.consume_inLeft (s : State) (d : Byte) (rest : List Byte) : (s.consume d rest).inLeft = s.inLeft := rfl
@[simp] theorem State.consume_outReady (s : State) (d : Byte) (rest : List Byte) : (s.consume d rest).outReady = s.outReady := rfl
@[simp] theorem State.consume_resReady (s : State) (d : Byte) (rest : List Byte) : (s.consume d rest).resReady = s.resReady := rfl
@[simp] theorem State.consume_rstPlan (s : State) (d : Byte) (rest : List Byte) : (s.consume d rest).rstPlan = s.rstPlan := rfl
@[simp] theorem State.consume_trace (s : State) (d : Byte) (rest : List Byte) : (s.consume d rest).trace = s.trace ++ [.inp d] := rfl

/-! ### emit -/

@[simp] theorem State.emit_cfg (s : State) (b : Byte) (last : Bool) : (s.emit b last).cfg = s.cfg := rfl
@[simp] theorem State.emit_busy (s : State) (b : Byte) (last : Bool) : (s.emit b last).busy = s.busy := rfl
@[simp] theorem State.emit_rOp (s : State) (b : Byte) (last : Bool) : (s.emit b last).rOp = s.rOp := rfl
@[simp] theorem State.emit_rSeq (s : State) (b : Byte) (last : Bool) : (s.emit b last).rSeq = s.rSeq := rfl
@[simp] theorem State.emit_rCsum (s : State) (b : Byte) (last : Bool) : (s.emit b last).rCsum = s.rCsum := rfl
@[simp] theorem State.emit_rLen (s : State) (b : Byte) (last : Bool) : (s.emit b last).rLen = s.rLen := rfl
@[simp] theorem State.emit_acc (s : State) (b : Byte) (last : Bool) : (s.emit b last).acc = s.acc := rfl
@[simp] theorem State.emit_icnt (s : State) (b : Byte) (last : Bool) : (s.emit b last).icnt = s.icnt := rfl
@[simp] theorem State.emit_ocnt (s : State) (b : Byte) (last : Bool) : (s.emit b last).ocnt = s.ocnt + 1 := rfl
@[simp] theorem State.emit_hdr (s : State) (b : Byte) (last : Bool) : (s.emit b last).hdr = s.hdr := rfl
@[simp] theorem State.emit_hold (s : State) (b : Byte) (last : Bool) : (s.emit b last).hold = s.hold := rfl
@[simp] theorem State.emit_holdFull (s : State) (b : Byte) (last : Bool) : (s.emit b last).holdFull = s.holdFull := rfl
@[simp] theorem State.emit_buf (s : State) (b : Byte) (last : Bool) : (s.emit b last).buf = s.buf := rfl
@[simp] theorem State.emit_cmdQ (s : State) (b : Byte) (last : Bool) : (s.emit b last).cmdQ = s.cmdQ := rfl
@[simp] theorem State.emit_inQ (s : State) (b : Byte) (last : Bool) : (s.emit b last).inQ = s.inQ := rfl
@[simp] theorem State.emit_inLeft (s : State) (b : Byte) (last : Bool) : (s.emit b last).inLeft = s.inLeft := rfl
@[simp] theorem State.emit_outReady (s : State) (b : Byte) (last : Bool) : (s.emit b last).outReady = s.outReady := rfl
@[simp] theorem State.emit_resReady (s : State) (b : Byte) (last : Bool) : (s.emit b last).resReady = s.resReady := rfl
@[simp] theorem State.emit_rstPlan (s : State) (b : Byte) (last : Bool) : (s.emit b last).rstPlan = s.rstPlan := rfl
@[simp] theorem State.emit_trace (s : State) (b : Byte) (last : Bool) : (s.emit b last).trace = s.trace ++ [.out b last] := rfl

/-! ### deliver -/

@[simp] theorem State.deliver_cfg (s : State) (r : Result) : (s.deliver r).cfg = s.cfg := rfl
@[simp] theorem State.deliver_busy (s : State) (r : Result) : (s.deliver r).busy = false := rfl
@[simp] theorem State.deliver_rOp (s : State) (r : Result) : (s.deliver r).rOp = s.rOp := rfl
@[simp] theorem State.deliver_rSeq (s : State) (r : Result) : (s.deliver r).rSeq = s.rSeq := rfl
@[simp] theorem State.deliver_rCsum (s : State) (r : Result) : (s.deliver r).rCsum = s.rCsum := rfl
@[simp] theorem State.deliver_rLen (s : State) (r : Result) : (s.deliver r).rLen = s.rLen := rfl
@[simp] theorem State.deliver_acc (s : State) (r : Result) : (s.deliver r).acc = s.acc := rfl
@[simp] theorem State.deliver_icnt (s : State) (r : Result) : (s.deliver r).icnt = s.icnt := rfl
@[simp] theorem State.deliver_ocnt (s : State) (r : Result) : (s.deliver r).ocnt = s.ocnt := rfl
@[simp] theorem State.deliver_hdr (s : State) (r : Result) : (s.deliver r).hdr = s.hdr := rfl
@[simp] theorem State.deliver_hold (s : State) (r : Result) : (s.deliver r).hold = s.hold := rfl
@[simp] theorem State.deliver_holdFull (s : State) (r : Result) : (s.deliver r).holdFull = s.holdFull := rfl
@[simp] theorem State.deliver_buf (s : State) (r : Result) : (s.deliver r).buf = s.buf := rfl
@[simp] theorem State.deliver_cmdQ (s : State) (r : Result) : (s.deliver r).cmdQ = s.cmdQ := rfl
@[simp] theorem State.deliver_inQ (s : State) (r : Result) : (s.deliver r).inQ = s.inQ := rfl
@[simp] theorem State.deliver_inLeft (s : State) (r : Result) : (s.deliver r).inLeft = s.inLeft := rfl
@[simp] theorem State.deliver_outReady (s : State) (r : Result) : (s.deliver r).outReady = s.outReady := rfl
@[simp] theorem State.deliver_resReady (s : State) (r : Result) : (s.deliver r).resReady = s.resReady := rfl
@[simp] theorem State.deliver_rstPlan (s : State) (r : Result) : (s.deliver r).rstPlan = s.rstPlan := rfl
@[simp] theorem State.deliver_trace (s : State) (r : Result) : (s.deliver r).trace = s.trace ++ [.res r] := rfl

/-! ### tRst -/

@[simp] theorem tRst_cfg (s : State) : (tRst s).cfg = s.cfg := rfl
@[simp] theorem tRst_busy (s : State) : (tRst s).busy = false := rfl
@[simp] theorem tRst_rOp (s : State) : (tRst s).rOp = .enc := rfl
@[simp] theorem tRst_rSeq (s : State) : (tRst s).rSeq = 0 := rfl
@[simp] theorem tRst_rCsum (s : State) : (tRst s).rCsum = 0 := rfl
@[simp] theorem tRst_rLen (s : State) : (tRst s).rLen = 0 := rfl
@[simp] theorem tRst_acc (s : State) : (tRst s).acc = 0 := rfl
@[simp] theorem tRst_icnt (s : State) : (tRst s).icnt = 0 := rfl
@[simp] theorem tRst_ocnt (s : State) : (tRst s).ocnt = 0 := rfl
@[simp] theorem tRst_hdr (s : State) : (tRst s).hdr = zeroHdr := rfl
@[simp] theorem tRst_hold (s : State) : (tRst s).hold = 0 := rfl
@[simp] theorem tRst_holdFull (s : State) : (tRst s).holdFull = false := rfl
@[simp] theorem tRst_buf (s : State) : (tRst s).buf = s.buf := rfl
@[simp] theorem tRst_cmdQ (s : State) : (tRst s).cmdQ = s.cmdQ := rfl
@[simp] theorem tRst_inQ (s : State) : (tRst s).inQ = s.inQ := rfl
@[simp] theorem tRst_inLeft (s : State) : (tRst s).inLeft = s.inQ.length := rfl
@[simp] theorem tRst_outReady (s : State) : (tRst s).outReady = s.outReady := rfl
@[simp] theorem tRst_resReady (s : State) : (tRst s).resReady = s.resReady := rfl
@[simp] theorem tRst_rstPlan (s : State) : (tRst s).rstPlan = s.rstPlan.tail := rfl
@[simp] theorem tRst_trace (s : State) : (tRst s).trace = s.trace ++ [.rst] := rfl

/-! ### elapse: only the plan of resets changes -/

@[simp] theorem State.elapse_cfg (s : State) : s.elapse.cfg = s.cfg := by
  unfold State.elapse; split <;> rfl
@[simp] theorem State.elapse_busy (s : State) : s.elapse.busy = s.busy := by
  unfold State.elapse; split <;> rfl
@[simp] theorem State.elapse_rOp (s : State) : s.elapse.rOp = s.rOp := by
  unfold State.elapse; split <;> rfl
@[simp] theorem State.elapse_rSeq (s : State) : s.elapse.rSeq = s.rSeq := by
  unfold State.elapse; split <;> rfl
@[simp] theorem State.elapse_rCsum (s : State) : s.elapse.rCsum = s.rCsum := by
  unfold State.elapse; split <;> rfl
@[simp] theorem State.elapse_rLen (s : State) : s.elapse.rLen = s.rLen := by
  unfold State.elapse; split <;> rfl
@[simp] theorem State.elapse_acc (s : State) : s.elapse.acc = s.acc := by
  unfold State.elapse; split <;> rfl
@[simp] theorem State.elapse_icnt (s : State) : s.elapse.icnt = s.icnt := by
  unfold State.elapse; split <;> rfl
@[simp] theorem State.elapse_ocnt (s : State) : s.elapse.ocnt = s.ocnt := by
  unfold State.elapse; split <;> rfl
@[simp] theorem State.elapse_hdr (s : State) : s.elapse.hdr = s.hdr := by
  unfold State.elapse; split <;> rfl
@[simp] theorem State.elapse_hold (s : State) : s.elapse.hold = s.hold := by
  unfold State.elapse; split <;> rfl
@[simp] theorem State.elapse_holdFull (s : State) : s.elapse.holdFull = s.holdFull := by
  unfold State.elapse; split <;> rfl
@[simp] theorem State.elapse_buf (s : State) : s.elapse.buf = s.buf := by
  unfold State.elapse; split <;> rfl
@[simp] theorem State.elapse_cmdQ (s : State) : s.elapse.cmdQ = s.cmdQ := by
  unfold State.elapse; split <;> rfl
@[simp] theorem State.elapse_inQ (s : State) : s.elapse.inQ = s.inQ := by
  unfold State.elapse; split <;> rfl
@[simp] theorem State.elapse_inLeft (s : State) : s.elapse.inLeft = s.inLeft := by
  unfold State.elapse; split <;> rfl
@[simp] theorem State.elapse_outReady (s : State) : s.elapse.outReady = s.outReady := by
  unfold State.elapse; split <;> rfl
@[simp] theorem State.elapse_resReady (s : State) : s.elapse.resReady = s.resReady := by
  unfold State.elapse; split <;> rfl
@[simp] theorem State.elapse_trace (s : State) : s.elapse.trace = s.trace := by
  unfold State.elapse; split <;> rfl

@[simp] theorem State.elapse_rstPlan_nil (s : State) (h : s.rstPlan = []) : s.elapse = s := by
  unfold State.elapse; rw [h]

theorem State.elapse_rstPlan_cons (s : State) (n : Nat) (rest : List Nat) (h : s.rstPlan = n :: rest) :
    s.elapse = { s with rstPlan := (n - 1) :: rest } := by
  unfold State.elapse; rw [h]

/-! ### The latched command and the parameter -/

@[simp] theorem State.latched_op (s : State) : s.latched.op = s.rOp := rfl
@[simp] theorem State.latched_seq (s : State) : s.latched.seq = s.rSeq := rfl
@[simp] theorem State.latched_csum (s : State) : s.latched.csum = s.rCsum := rfl
@[simp] theorem State.latched_len (s : State) : s.latched.len = s.rLen := rfl
@[simp] theorem State.latched_accept (s : State) (c : Command) : (s.accept c).latched = c := rfl
@[simp] theorem State.latched_elapse (s : State) : s.elapse.latched = s.latched := by
  simp [State.latched]
@[simp] theorem State.payloadMax_elapse (s : State) : s.elapse.payloadMax = s.payloadMax := by
  simp [State.payloadMax]

end Sys2Proof.Machine
end

