-- ==== Sys2Proof/Laws/Operands.lean ====
section
/-! SUPPORT. What each derived predicate and each enabling condition says, as a proposition about the registers. Later proofs
rewrite with these and do not unfold the Bool definitions. -/

namespace Sys2Proof.Machine

theorem encOk_iff (s : State) : encOk s = true ↔ s.rOp = .enc ∧ s.rLen.toNat ≤ s.payloadMax := by
  simp [encOk]

theorem encRef_iff (s : State) : encRef s = true ↔ s.rOp = .enc ∧ s.payloadMax < s.rLen.toNat := by
  simp [encRef]

theorem decShort_iff (s : State) : decShort s = true ↔ s.rOp = .dec ∧ s.rLen.toNat < 8 := by
  simp [decShort]

theorem decPass_iff (s : State) :
    decPass s = true ↔ s.rOp = .dec ∧ 8 ≤ s.rLen.toNat ∧ 8 ≤ s.icnt.toNat ∧ declared s = s.rLen := by
  simp [decPass, and_assoc]

theorem decMis_iff (s : State) :
    decMis s = true ↔ s.rOp = .dec ∧ 8 ≤ s.rLen.toNat ∧ 8 ≤ s.icnt.toNat ∧ declared s ≠ s.rLen := by
  simp [decMis, and_assoc]

theorem enCmd_iff (s : State) : enCmd s = true ↔ s.busy = false := by
  simp [enCmd]

theorem enIn_iff (s : State) :
    enIn s = true ↔ s.busy = true ∧ s.icnt.toNat < s.rLen.toNat ∧ ¬ (decPass s = true ∧ s.holdFull = true) := by
  simp only [enIn, Bool.and_eq_true, decide_eq_true_eq, and_assoc]
  cases decPass s <;> cases s.holdFull <;> simp

theorem enOut_iff (s : State) :
    enOut s = true ↔ s.busy = true ∧
      ((encOk s = true ∧ s.icnt = s.rLen ∧ s.ocnt.toNat < 8 + s.rLen.toNat) ∨ s.holdFull = true) := by
  simp [enOut, and_assoc]

theorem enRes_iff (s : State) :
    enRes s = true ↔ s.busy = true ∧ s.icnt = s.rLen ∧ s.holdFull = false ∧
      (encOk s = true → s.ocnt.toNat = 8 + s.rLen.toNat) := by
  simp only [enRes, Bool.and_eq_true, beq_iff_eq, Bool.not_eq_true', Bool.or_eq_true, decide_eq_true_eq, and_assoc]
  cases encOk s <;> simp

/-- `rst = 1` at the next step is a plan whose first entry is 0. -/
theorem rstNow_iff (s : State) : rstNow s = true ↔ ∃ rest, s.rstPlan = 0 :: rest := by
  cases h : s.rstPlan with
  | nil => simp [rstNow, h]
  | cons n rest => simp [rstNow, h]

end Sys2Proof.Machine
end

