-- ==== Sys2Proof/Laws/Meanings.lean ====
section
/-! SUPPORT. One lemma for each case of each rule of an operation: what its `T_IN` writes, what its `T_OUT` carries, what
its result is; and what a read of `buf`, a fetch, a host move and an open run can do. -/

namespace Sys2Proof.Machine

/-! ### The running sum -/

/-- The addition of R31 is the wrapping 8-bit addition. -/
theorem accAdd_eq_add (a d : Byte) : accAdd a d = a + d := by
  apply BitVec.eq_of_toNat_eq
  simp [accAdd, BitVec.toNat_add]

/-! ### `T_IN` -/

theorem encIn_accepted (s : State) (d : Byte) (h : encOk s = true) : encIn s d = (s.writeBuf d).addAcc d := by
  simp [encIn, h]

theorem encIn_refused (s : State) (d : Byte) (h : encOk s = false) : encIn s d = s := by
  simp [encIn, h]

theorem decIn_short (s : State) (d : Byte) (h : s.rLen.toNat < 8) : decIn s d = s := by
  simp [decIn, Nat.not_le.mpr h]

theorem decIn_header_low (s : State) (d : Byte) (h : 8 ≤ s.rLen.toNat) (hi : s.icnt.toNat < 4) :
    decIn s d = s.writeHdr d := by
  simp [decIn, h, show s.icnt.toNat < 8 by omega, Nat.not_le.mpr hi]

theorem decIn_header_high (s : State) (d : Byte) (h : 8 ≤ s.rLen.toNat) (hi : 4 ≤ s.icnt.toNat)
    (hi' : s.icnt.toNat < 8) : decIn s d = (s.writeHdr d).addAcc d := by
  simp [decIn, h, hi, hi']

theorem decIn_payload (s : State) (d : Byte) (h : 8 ≤ s.rLen.toNat) (hi : 8 ≤ s.icnt.toNat)
    (hd : declared s = s.rLen) : decIn s d = (s.fillHold d).addAcc d := by
  simp [decIn, h, Nat.not_lt.mpr hi, hd]

theorem decIn_mismatch (s : State) (d : Byte) (h : 8 ≤ s.rLen.toNat) (hi : 8 ≤ s.icnt.toNat)
    (hd : declared s ≠ s.rLen) : decIn s d = s := by
  simp [decIn, h, Nat.not_lt.mpr hi, hd]

/-! ### Results -/

theorem encRes_accepted (s : State) (h : encOk s = true) :
    encRes s = okResult .enc s.rSeq (zext16 s.acc) (encTotal s) true := by
  simp [encRes, h]

theorem encRes_refused (s : State) (h : encOk s = false) : encRes s = raiseError .enc .payload := by
  simp [encRes, h]

theorem decRes_short (s : State) (h : s.rLen.toNat < 8) : decRes s = raiseError .dec .short := by
  simp [decRes, h]

theorem decRes_length (s : State) (h : 8 ≤ s.rLen.toNat) (hd : declared s ≠ s.rLen) :
    decRes s = raiseError .dec .length := by
  simp [decRes, Nat.not_lt.mpr h, hd]

theorem decRes_ok (s : State) (h : 8 ≤ s.rLen.toNat) (hd : declared s = s.rLen) :
    decRes s = okResult .dec (hdrSeq s) (hdrCsum s) (declared s) (decOk s) := by
  simp [decRes, Nat.not_lt.mpr h, hd]

@[simp] theorem raiseError_op (op : Op) (e : OpError) : (raiseError op e).op = op := rfl

theorem raiseError_status (op : Op) (e : OpError) : (raiseError op e).status ≠ .ok := by
  cases e <;> simp [raiseError, errorStatus]

/-! ### `buf` -/

/-- A successful read of `buf` is of a cell below `icnt` that is listed. -/
theorem bufRead_some (s : State) (k : Nat) (b : Byte) :
    bufRead s k = some b ↔ k < s.icnt.toNat ∧ Memory.read s.buf k = some b := by
  simp [bufRead]

/-! ### Fetch -/

theorem fetch_busy (s : State) (h : s.busy = true) : fetch s = some (s.latched.toInstr, s.elapse) := by
  simp [fetch, h]

theorem fetch_idle (s : State) (h : s.busy = false) (o : Offer) (rest : List Offer) (hq : s.cmdQ = o :: rest) :
    fetch s = some (decodeOffer o, { s.elapse with cmdQ := rest }) := by
  simp [fetch, h, hq]

/-! ### Host moves -/

@[simp] theorem hostMove_busy (m : HostMove) (s : State) : (hostMove m s).busy = s.busy := by
  cases m <;> rfl
@[simp] theorem hostMove_latched (m : HostMove) (s : State) : (hostMove m s).latched = s.latched := by
  cases m <;> rfl
@[simp] theorem hostMove_trace (m : HostMove) (s : State) : (hostMove m s).trace = s.trace := by
  cases m <;> rfl
@[simp] theorem hostMove_buf (m : HostMove) (s : State) : (hostMove m s).buf = s.buf := by
  cases m <;> rfl
@[simp] theorem hostMove_cfg (m : HostMove) (s : State) : (hostMove m s).cfg = s.cfg := by
  cases m <;> rfl
@[simp] theorem hostMove_hdr (m : HostMove) (s : State) : (hostMove m s).hdr = s.hdr := by
  cases m <;> rfl

/-- What a host move does to the offered input bytes. -/
theorem hostMove_inQ (m : HostMove) (s : State) :
    (hostMove m s).inQ = (match m with
      | .supply d => s.inQ ++ [d]
      | .withdrawInput => s.inQ.drop s.inLeft
      | .offer _ | .takeOut _ | .takeRes _ | .planReset _ => s.inQ) := by
  cases m <;> rfl

/-- With nothing left over, taking back changes nothing (R57, U4). -/
theorem hostMove_withdrawInput_of_none (s : State) (h : s.inLeft = 0) : hostMove .withdrawInput s = s := by
  cases s
  simp_all [hostMove]

/-! ### Open runs -/

@[simp] theorem runEvents_nil (s : State) : runEvents [] s = .next s := rfl
@[simp] theorem runEvents_host (m : HostMove) (es : List RunEvent) (s : State) :
    runEvents (.host m :: es) s = runEvents es (hostMove m s) := rfl
theorem runEvents_step (es : List RunEvent) (s t : State) (h : step s = .next t) :
    runEvents (.step :: es) s = runEvents es t := by
  simp [runEvents, h]

/-- A run in two parts: the second goes on where the first ends. -/
theorem runEvents_append (es fs : List RunEvent) (s t : State) (h : runEvents es s = .next t) :
    runEvents (es ++ fs) s = runEvents fs t := by
  induction es generalizing s with
  | nil => simp_all [runEvents]
  | cons e es ih =>
    cases e with
    | host m => exact ih _ h
    | step =>
      cases hs : step s with
      | next u =>
        rw [runEvents_step _ _ _ hs] at h
        rw [List.cons_append, runEvents_step _ _ _ hs]
        exact ih _ h
      | fault f => simp [runEvents, hs] at h
      | refused r => simp [runEvents, hs] at h

@[simp] theorem stepCount_nil : stepCount [] = 0 := rfl
@[simp] theorem stepCount_host (m : HostMove) (es : List RunEvent) : stepCount (.host m :: es) = stepCount es := by
  simp [stepCount]
@[simp] theorem stepCount_step (es : List RunEvent) : stepCount (.step :: es) = stepCount es + 1 := by
  simp [stepCount]

end Sys2Proof.Machine
end

