-- ==== Sys2Proof/Laws/Memory.lean ====
section
/-! SUPPORT. The laws of the byte memory: read after write, the canonical form, and which addresses are listed. -/

namespace Sys2Proof.Machine

@[simp] theorem Memory.read_nil (k : Nat) : Memory.read [] k = none := rfl

theorem Memory.read_write_same (m : Memory) (k : Nat) (b : Byte) : Memory.read (Memory.write m k b) k = some b := by
  induction m with
  | nil => simp [Memory.write, Memory.read]
  | cons x m ih =>
    obtain ⟨a, c⟩ := x
    simp only [Memory.write]
    split
    · simp [Memory.read]
    · split
      · simp [Memory.read]
      · next _ h => simp [Memory.read, Ne.symm h, ih]

theorem Memory.read_write_other (m : Memory) (k j : Nat) (b : Byte) (h : j ≠ k) :
    Memory.read (Memory.write m k b) j = Memory.read m j := by
  induction m with
  | nil => simp [Memory.write, Memory.read, Ne.symm h]
  | cons x m ih =>
    obtain ⟨a, c⟩ := x
    simp only [Memory.write]
    split
    · simp [Memory.read, Ne.symm h]
    · split
      · next _ hk => subst hk; simp [Memory.read, Ne.symm h]
      · simp [Memory.read, ih]

/-- A write lists no address but its own and those listed before. -/
theorem Memory.mem_write (m : Memory) (k : Nat) (b : Byte) (x : Host.Cell) (h : x ∈ Memory.write m k b) :
    x.1 = k ∨ x ∈ m := by
  induction m with
  | nil => simp [Memory.write] at h; simp [h]
  | cons y m ih =>
    obtain ⟨a, c⟩ := y
    simp only [Memory.write] at h
    split at h
    · rcases List.mem_cons.mp h with rfl | h
      · simp
      · exact .inr h
    · split at h
      · rcases List.mem_cons.mp h with rfl | h
        · simp
        · exact .inr (List.mem_cons_of_mem _ h)
      · rcases List.mem_cons.mp h with rfl | h
        · simp
        · rcases ih h with h | h
          · exact .inl h
          · exact .inr (List.mem_cons_of_mem _ h)

/-- A write keeps the canonical form. -/
theorem Memory.write_wf (m : Memory) (k : Nat) (b : Byte) (h : Memory.wf m) : Memory.wf (Memory.write m k b) := by
  induction m with
  | nil => simp [Memory.write, Memory.wf]
  | cons y m ih =>
    obtain ⟨a, c⟩ := y
    rw [Memory.wf, List.pairwise_cons] at h
    obtain ⟨h1, h2⟩ := h
    simp only [Memory.write]
    split
    · next hk =>
      refine List.pairwise_cons.mpr ⟨?_, List.pairwise_cons.mpr ⟨h1, h2⟩⟩
      intro x hx
      rcases List.mem_cons.mp hx with rfl | hx
      · exact hk
      · exact Nat.lt_trans hk (h1 x hx)
    · split
      · next _ hk =>
        subst hk
        exact List.pairwise_cons.mpr ⟨h1, h2⟩
      · next hk1 hk2 =>
        refine List.pairwise_cons.mpr ⟨?_, ih h2⟩
        intro x hx
        rcases Memory.mem_write m k b x hx with hx | hx
        · simp only [hx]; omega
        · exact h1 x hx

/-- The reset memory lists nothing, in canonical form. -/
theorem Memory.reset_wf : Memory.wf State.reset.buf := List.Pairwise.nil

end Sys2Proof.Machine
end

