-- ==== Sys2Proof/Laws/PerInstr.lean ====
section
/-! SUPPORT. A statement for all instructions, one lemma per constructor: the word of an instruction has one of the two
widths of the opcode table and fits it. -/

namespace Sys2Proof.Laws.WordFits

/-- The word of `i`, numbered as the table numbers it, is 64 bits wide for the frame header and 66 for a command, and
has no bit beyond its width. -/
def Statement (i : Instr) : Prop :=
  (encodeTableWord i).1 = (match i with
    | .frame _ _ _ => 64
    | .enc _ _ _ => 66
    | .dec _ _ _ => 66
    | .csum _ _ _ => 66
    | .vfy _ _ _ => 66) ∧
  (encodeTableWord i).2 < 2 ^ (encodeTableWord i).1

theorem enc (seq : Seq) (k len : Half) : Statement (.enc seq k len) := ⟨rfl, BitVec.isLt _⟩
theorem dec (seq : Seq) (k len : Half) : Statement (.dec seq k len) := ⟨rfl, BitVec.isLt _⟩
theorem csum (seq : Seq) (k len : Half) : Statement (.csum seq k len) := ⟨rfl, BitVec.isLt _⟩
theorem vfy (seq : Seq) (k len : Half) : Statement (.vfy seq k len) := ⟨rfl, BitVec.isLt _⟩
theorem frame (k len : Half) (seq : Seq) : Statement (.frame k len seq) := ⟨rfl, BitVec.isLt _⟩

end Sys2Proof.Laws.WordFits
end

