-- ==== Sys2Proof/Laws/Step.lean ====
section
/-! SUPPORT. What a step can do, said once: the shared shape of a channel step, exec in terms of it, and step in terms of
exec. Later proofs cite these and do not unfold the definitions. -/

namespace Sys2Proof.Machine

/-- What the operation `op` does at a `T_IN`, less the count. -/
def inputOf : Op → State → Byte → State
  | .enc => encIn
  | .dec => decIn
  | .csum => sumIn
  | .vfy => sumIn

/-- What the operation `op` does at a `T_OUT`. -/
def outputOf : Op → State → Host.Outcome State Fault Refusal
  | .enc => encOut
  | .dec => decOut
  | .csum => noOut
  | .vfy => noOut

/-- The four operations are one shape with their own three rules. -/
theorem exec_toInstr (c : Command) (s : State) :
    exec c.toInstr s = channelStep c (inputOf c.op) (outputOf c.op) (resultOf c.op) s := by
  obtain ⟨op, q, k, n⟩ := c
  cases op <;> rfl

theorem exec_frame (csum len : Half) (seq : Seq) (s : State) :
    exec (.frame csum len seq) s = .refused .notAnOperation := rfl

theorem exec_of_command (i : Instr) (c : Command) (h : i.command? = some c) : i = c.toInstr := by
  cases i <;> simp [Instr.command?] at h <;> subst h <;> rfl

@[simp] theorem Command.command?_toInstr (c : Command) : c.toInstr.command? = some c := by
  obtain ⟨op, q, k, n⟩ := c
  cases op <;> rfl

variable {c : Command} {onIn : State → Byte → State} {onOut : State → Host.Outcome State Fault Refusal}
  {onRes : State → Result} {s t : State}

theorem channelStep_idle (h : s.busy = false) : channelStep c onIn onOut onRes s = .next (s.accept c) := by
  simp [channelStep, h]

theorem channelStep_other (h : s.busy = true) (hc : s.latched ≠ c) :
    channelStep c onIn onOut onRes s = .fault .engineBusy := by
  simp [channelStep, h, hc]

theorem channelStep_in (h : s.busy = true) (hc : s.latched = c) (he : enIn s = true) (d : Byte) (rest : List Byte)
    (hq : s.inQ = d :: rest) : channelStep c onIn onOut onRes s = .next ((onIn s d).consume d rest) := by
  simp [channelStep, h, hc, he, hq]

theorem channelStep_out (h : s.busy = true) (hc : s.latched = c) (hi : enIn s = false) (he : enOut s = true)
    (hr : s.outReady = true) : channelStep c onIn onOut onRes s = onOut s := by
  simp [channelStep, h, hc, hi, he, hr]

theorem channelStep_res (h : s.busy = true) (hc : s.latched = c) (hi : enIn s = false) (ho : enOut s = false)
    (he : enRes s = true) (hr : s.resReady = true) :
    channelStep c onIn onOut onRes s = .next (s.deliver (onRes s)) := by
  simp [channelStep, h, hc, hi, ho, he, hr]

/-- Everything a channel step can do when it answers a next state. -/
theorem channelStep_cases (h : channelStep c onIn onOut onRes s = .next t) :
    (s.busy = false ∧ t = s.accept c) ∨
    (s.busy = true ∧ s.latched = c ∧ enIn s = true ∧
      ∃ d rest, s.inQ = d :: rest ∧ t = (onIn s d).consume d rest) ∨
    (s.busy = true ∧ s.latched = c ∧ enIn s = false ∧ enOut s = true ∧ s.outReady = true ∧ onOut s = .next t) ∨
    (s.busy = true ∧ s.latched = c ∧ enIn s = false ∧ enOut s = false ∧ enRes s = true ∧ s.resReady = true ∧
      t = s.deliver (onRes s)) := by
  unfold channelStep at h
  split at h
  · next hb => exact .inl ⟨hb, by simpa using h.symm⟩
  · next hb =>
    have hb : s.busy = true := by simpa using hb
    split at h
    · cases h
    · next hc =>
      have hc : s.latched = c := by simpa using hc
      split at h
      · next hi =>
        split at h
        · cases h
        · next d rest hq => exact .inr (.inl ⟨hb, hc, hi, d, rest, hq, by simpa using h.symm⟩)
      · next hi =>
        have hi : enIn s = false := by simpa using hi
        split at h
        · next ho =>
          split at h
          · next hr => exact .inr (.inr (.inl ⟨hb, hc, hi, ho, hr, h⟩))
          · cases h
        · next ho =>
          have ho : enOut s = false := by simpa using ho
          split at h
          · next he =>
            split at h
            · next hr => exact .inr (.inr (.inr ⟨hb, hc, hi, ho, he, hr, by simpa using h.symm⟩))
            · cases h
          · cases h

/-- Everything ENC's `T_OUT` can do when it answers a next state. -/
theorem encOut_cases (h : encOut s = .next t) :
    encOk s = true ∧ s.icnt = s.rLen ∧ s.ocnt.toNat < 8 + s.rLen.toNat ∧
      ∃ b, encByte s = some b ∧ t = s.emit b (encLast s) := by
  unfold encOut at h
  split at h
  · next hc =>
    simp only [Bool.and_eq_true, beq_iff_eq, decide_eq_true_eq] at hc
    split at h
    · next b hb => exact ⟨hc.1.1, hc.1.2, hc.2, b, hb, by simpa using h.symm⟩
    · cases h
  · cases h

theorem decOut_cases (h : decOut s = .next t) : t = s.emptyHold.emit s.hold (decLast s) := by
  simpa [decOut] using h.symm

theorem noOut_ne_next : noOut s ≠ .next t := by simp [noOut]

/-! ### step -/

theorem step_rst (h : rstNow s = true) : step s = .next (tRst s) := by simp [step, h]

theorem step_idle_nil (h : rstNow s = false) (hb : s.busy = false) (hq : s.cmdQ = []) :
    step s = .fault .quiescent := by
  simp [step, fetch, h, hb, hq]

theorem step_idle_cons (h : rstNow s = false) (hb : s.busy = false) (o : Offer) (rest : List Offer)
    (hq : s.cmdQ = o :: rest) : step s = exec (decodeOffer o) { s.elapse with cmdQ := rest } := by
  simp [step, fetch, h, hb, hq]

theorem step_busy (h : rstNow s = false) (hb : s.busy = true) :
    step s = channelStep s.latched (inputOf s.rOp) (outputOf s.rOp) (resultOf s.rOp) s.elapse := by
  simp [step, fetch, h, hb, exec_toInstr]

/-- Everything a step can do when it answers a next state: a reset, the acceptance of an offered command, or one
channel step of the operation in progress. -/
theorem step_cases (h : step s = .next t) :
    (rstNow s = true ∧ t = tRst s) ∨
    (rstNow s = false ∧ s.busy = false ∧
      ∃ w rest, s.cmdQ = .command w :: rest ∧
        t = { s.elapse with cmdQ := rest }.accept (decodeCommand w)) ∨
    (rstNow s = false ∧ s.busy = true ∧
      channelStep s.latched (inputOf s.rOp) (outputOf s.rOp) (resultOf s.rOp) s.elapse = .next t) := by
  by_cases hr : rstNow s = true
  · rw [step_rst hr] at h
    exact .inl ⟨hr, by simpa using h.symm⟩
  · have hr : rstNow s = false := by simpa using hr
    by_cases hb : s.busy = true
    · rw [step_busy hr hb] at h
      exact .inr (.inr ⟨hr, hb, h⟩)
    · have hb : s.busy = false := by simpa using hb
      refine .inr (.inl ⟨hr, hb, ?_⟩)
      cases hq : s.cmdQ with
      | nil => rw [step_idle_nil hr hb hq] at h; cases h
      | cons o rest =>
        rw [step_idle_cons hr hb o rest hq] at h
        cases o with
        | header x => simp [decodeOffer, decodeHeader, exec_frame] at h
        | command w =>
          rw [decodeOffer, exec_toInstr, channelStep_idle (by simpa using hb)] at h
          exact ⟨w, rest, rfl, by simpa using h.symm⟩

end Sys2Proof.Machine
end

