-- ==== Sys2Proof/Machine/Transcript.lean ====
section
/-! DEFINITION. The transcript notation (R96) and its pseudo-operations (R97), as programs. -/

namespace Sys2Proof.Machine

/-- The command and the input bytes of a line: `cmd.len` is the number of input bytes, ignored fields are 0 (R96);
`ACK s` is `ENC seq=s in=[]` and `DATA s, [bytes]` is `ENC seq=s in=[bytes]` (R97). -/
def expandLine : Line → Command × List Byte
  | .enc q B => (⟨.enc, q, 0, BitVec.ofNat 16 B.length⟩, B)
  | .dec B => (⟨.dec, 0, 0, BitVec.ofNat 16 B.length⟩, B)
  | .csum q B => (⟨.csum, q, 0, BitVec.ofNat 16 B.length⟩, B)
  | .vfy q k B => (⟨.vfy, q, k, BitVec.ofNat 16 B.length⟩, B)
  | .ack q => (⟨.enc, q, 0, 0⟩, [])
  | .data q B => (⟨.enc, q, 0, BitVec.ofNat 16 B.length⟩, B)

/-- The program of a transcript: the operations in order, each issued after the previous result (R96). -/
def expandTranscript (ls : List Line) : Program := ls.map expandLine

end Sys2Proof.Machine
end

