-- ==== Sys2Proof/Tests/Slice0.lean ====
section
/-! SUPPORT. Tests: expected values from 95_test_vectors.md or by hand from the encoding tables, and a witness of the
hypotheses of each obligation that has some. -/

namespace Sys2Proof.Tests

open Sys2Proof Sys2Proof.Machine

/-- The next state of an outcome. -/
def nextOf : Host.Outcome State Fault Refusal → Option State
  | .next t => some t
  | .fault _ => none
  | .refused _ => none

/-- An engine busy with `c` after `i` input and `o` output transfers, with the accumulator at `a`. -/
def busyWith (c : Command) (i o : Half) (a : Byte) : State :=
  { State.reset with
    busy := true, rOp := c.op, rSeq := c.seq, rCsum := c.csum, rLen := c.len, icnt := i, ocnt := o, acc := a }

/-- The header of the frame of V19, `00 83 00 0A 00 00 00 00`. -/
def headerAB : Vector Byte 8 := #v[0x00, 0x83, 0x00, 0x0A, 0x00, 0x00, 0x00, 0x00]

/-- A DEC of V29 after the header and payload byte `41`: row 10 of trace 3.2. -/
def decHolding : State :=
  { busyWith ⟨.dec, 0, 0, 10⟩ 9 0 0x41 with hdr := headerAB, hold := 0x41, holdFull := true }

/-- An idle engine offered the command `c` and the input `B`. -/
def offered (c : Command) (B : List Byte) : State :=
  { State.reset with cmdQ := [.command (encodeCommand c)], inQ := B }

/-! ### WellFormed: the check refuses an ill-formed term -/

theorem test_frame_shorter_than_its_header_is_ill_formed : Instr.wellFormed (.frame 0 7 0) = false := by decide
theorem test_frame_of_an_acknowledgment_is_well_formed : Instr.wellFormed (.frame 0 8 0) = true := by decide

/-! ### Decode: words written out from R88, R90 and R80 -/

theorem test_decode_enc : decodeOffer (.command 0x0DEADBEEF00000003#66) = .enc 0xDEADBEEF 0 3 := by decide
theorem test_decode_dec : decodeOffer (.command 0x1DEADBEEF1234000A#66) = .dec 0xDEADBEEF 0x1234 10 := by decide
theorem test_decode_csum : decodeOffer (.command 0x2FFFFFFFF000001F4#66) = .csum 0xFFFFFFFF 0 500 := by decide
theorem test_decode_vfy : decodeOffer (.command 0x30000000001830002#66) = .vfy 0 0x0183 2 := by decide
theorem test_decode_frame : decodeOffer (.header 0x00F5000D00000001#64) = .frame 0x00F5 13 1 := by decide
theorem test_table_word_too_wide : decodeTableWord 72 (2 ^ 66) = none := by decide
theorem test_table_word_frame : decodeTableWord 64 0x0083000A00000000 = some (.frame 0x0083 10 0) := by decide

/-! ### Result words: V12 and V10 -/

theorem test_result_word_v12 : encodeResult ⟨false, .vfy, .ok, 0, 0x0083, 2⟩ = 0x0C0000000000830002#69 := by decide
theorem test_result_word_v10 :
    encodeResult ⟨true, .csum, .ok, 0xFFFFFFFF, 0x0008, 500⟩ = 0x18FFFFFFFF000801F4#69 := by decide

/-! ### The codec: V25, V29, V47, V12 -/

theorem test_encode_v25 :
    encodeFrame 0xDEADBEEF [1, 2, 3] = [0x00, 0x3E, 0x00, 0x0B, 0xDE, 0xAD, 0xBE, 0xEF, 1, 2, 3] := by decide
theorem test_decode_v29 :
    decOp [0x00, 0x83, 0x00, 0x0A, 0, 0, 0, 0, 0x41, 0x42] = ([0x41, 0x42], ⟨true, .dec, .ok, 0, 0x0083, 10⟩) := by
  decide
theorem test_decode_v47 : decOp [0, 0, 0, 5, 0] = ([], ⟨false, .dec, .eShort, 0, 0, 0⟩) := by decide
/-- V21: the acknowledgment of 1. -/
theorem test_ack_v21 :
    operation Config.default (expandLine (.ack 1)).1 (expandLine (.ack 1)).2 =
      ([0, 1, 0, 8, 0, 0, 0, 1], ⟨true, .enc, .ok, 1, 0x0001, 8⟩) := by decide
theorem test_verify_v12 : verify 0x0183 0 [0x41, 0x42] = false := by decide

/-! ### Steps: CSUM and VFY (V4, V3, V12), ENC (trace 3.1, V27), DEC (traces 3.2, 3.3) -/

/-- V4: 255 + 1 wraps to 0. -/
theorem test_csum_input_wraps :
    (nextOf (exec (.csum 0 0 2) { busyWith ⟨.csum, 0, 0, 2⟩ 1 0 0xFF with inQ := [0x01] })).map
      (fun t => (t.acc, t.icnt, t.inQ)) = some (0, 2, []) := by decide
/-- V3. -/
theorem test_csum_result :
    (nextOf (exec (.csum 0 0 2) (busyWith ⟨.csum, 0, 0, 2⟩ 2 0 0x83))).map (fun t => (resWords t.trace).map encodeResult)
      = some [0x180000000000830002#69] := by decide
theorem test_vfy_input :
    (nextOf (exec (.vfy 0 0x183 2) { busyWith ⟨.vfy, 0, 0x183, 2⟩ 1 0 0x41 with inQ := [0x42, 0x7E] })).map
      (fun t => (t.acc, t.icnt, t.inQ)) = some (0x83, 2, [0x7E]) := by decide
/-- V12: the comparison is of 16 bits. -/
theorem test_vfy_result :
    (nextOf (exec (.vfy 0 0x183 2) (busyWith ⟨.vfy, 0, 0x183, 2⟩ 2 0 0x83))).map
      (fun t => (resWords t.trace).map encodeResult) = some [0x0C0000000000830002#69] := by decide
/-- Trace 3.1, row 13. -/
theorem test_enc_last_output :
    (nextOf (exec (.enc 0 0 2) { busyWith ⟨.enc, 0, 0, 2⟩ 2 9 0x83 with buf := [(0, 0x41), (1, 0x42)] })).map
      (fun t => (outWords t.trace, t.ocnt)) = some ([(0x42, true)], 10) := by decide
/-- V27: one payload byte over `PAYLOAD_MAX`. -/
theorem test_enc_refused :
    (nextOf (exec (.enc 0 0 501) (busyWith ⟨.enc, 0, 0, 501⟩ 501 0 0))).map
      (fun t => ((resWords t.trace).map encodeResult, t.busy)) = some ([0x030000000000000000#69], false) := by decide
/-- Trace 3.2, row 10. -/
theorem test_dec_payload_input :
    (nextOf (exec (.dec 0 0 10) { busyWith ⟨.dec, 0, 0, 10⟩ 8 0 0 with hdr := headerAB, inQ := [0x41, 0x42] })).map
      (fun t => (t.hold, t.holdFull, t.acc, t.icnt, enIn t)) = some (0x41, true, 0x41, 9, false) := by decide
/-- Trace 3.3, row 11. -/
theorem test_dec_length_error :
    (nextOf (exec (.dec 0 0 9) { busyWith ⟨.dec, 0, 0, 9⟩ 9 0 0 with hdr := headerAB })).map
      (fun t => (resWords t.trace).map encodeResult) = some [0x060000000000000000#69] := by decide
/-- R95: the header row is no operation. -/
theorem test_frame_refused : exec (.frame 0x83 10 0) State.reset = .refused .notAnOperation := rfl
/-- V49: a reset from a busy state leaves the engine idle and `buf` alone. -/
theorem test_reset_mid_operation :
    (nextOf (step { busyWith ⟨.enc, 5, 0, 2⟩ 1 0 0x46 with buf := [(0, 0x41)], rstPlan := [0], inQ := [0x42] })).map
      (fun t => (t.busy, t.acc, t.buf, t.inQ)) = some (false, 0, [(0, 0x41)], [0x42]) := by
  decide
/-- R212, R57: after a reset the host takes back what it offered before it (P4, the byte 42), not what it offers later,
and while an operation is in progress nothing. -/
theorem test_only_left_over_input_is_taken_back :
    (hostMove .withdrawInput (hostMove (.supply 7) (tRst { busyWith ⟨.enc, 0, 0, 2⟩ 1 0 0x41 with inQ := [0x42] }))).inQ
      = [7] ∧
    (hostMove .withdrawInput { busyWith ⟨.enc, 0, 0, 2⟩ 1 0 0x41 with inQ := [0x42] }).inQ = [0x42] := by decide
/-- U8: an ENC aborted after one OUT byte, then a CSUM of one byte. -/
theorem test_aborted_operation_is_observed_without_result :
    observe none [.rst, .cmd ⟨.enc, 0, 0, 0⟩, .out 0x00 false, .rst, .cmd ⟨.csum, 0, 0, 1⟩, .inp 0x7E,
      .res ⟨true, .csum, .ok, 0, 0x7E, 1⟩] = [([0x00], none), ([], some ⟨true, .csum, .ok, 0, 0x7E, 1⟩)] := by decide
theorem test_first_step_accepts :
    (nextOf (step (State.reset.withFetchWord 72 0x2000000010000000A))).map (fun t => (t.busy, t.latched, t.acc)) =
      some (true, ⟨.csum, 1, 0, 10⟩, 1) := by decide

/-! ### Witnesses: the hypotheses of each obligation, met together -/

theorem witness_EveryCommandWordIsLegal :
    State.reset.busy = false ∧ rstNow { State.reset with cmdQ := [.command 0x3FFFFFFFFFFFFFFFF#66] } = false := by decide
theorem witness_FrameHeaderWordOfEncodedFrame : ([0x41, 0x42] : List Byte).length ≤ 65527 := by decide
theorem witness_RunningSumIsChecksumInAnyOrder : ([0x42, 0x41, 0xFF] : List Byte).Perm [0xFF, 0x41, 0x42] := by decide
theorem witness_VerifyComparesAllSixteenBits :
    255 < (0x0183 : Half).toNat ∧ verify 0x0083 0 [0x41, 0x42] = true ∧ 15 < 16 := by decide
theorem witness_EncodeFrameByMemoryWrites :
    ([0x41] : List Byte).length ≤ 65527 ∧ ([1, 2, 3, 4, 5, 6, 7, 8, 9] : List Byte).length = 8 + 1 := by decide
theorem witness_DecodeLosesNothing :
    decodeFrame [0x01, 0x83, 0x00, 0x0A, 0, 0, 0, 0, 0x41, 0x42] = .ok ⟨0, 0x0183, 10, [0x41, 0x42]⟩ := by decide +kernel
theorem witness_DecodeOfEncodeVerifies : ([] : List Byte).length ≤ 65527 := by decide
theorem witness_EncodeOfVerifiedDecode :
    decodeFrame [0x00, 0x83, 0x00, 0x0A, 0, 0, 0, 0, 0x41, 0x42] = .ok ⟨0, 0x0083, 10, [0x41, 0x42]⟩ ∧
    verify 0x0083 0 [0x41, 0x42] = true := by decide +kernel
theorem witness_EncodeFrameInjective : encodeFrame 1 [0x41] = encodeFrame 1 [0x41] := rfl
theorem witness_ReplacedChecksumFieldVerdict : ([0x41, 0x42] : List Byte).length ≤ 65527 ∧ 15 < 16 := by decide
/-- One corrupted byte in each field and at the end of the payload. -/
theorem witness_SingleByteCorruptionDetected :
    ∀ k ∈ [0, 1, 2, 3, 4, 7, 8, 9], k < 8 + 2 ∧ (encodeFrame 0 [0x41, 0x42])[k]? ≠ some 0x99 := by decide
theorem witness_CompensatingCorruptionPasses : ([0x42, 0x41] : List Byte).length = ([0x41, 0x42] : List Byte).length := by
  decide
/-- The status clauses at their boundaries: a DEC of 7 and of 8 bytes, an ENC one byte over and at a `PAYLOAD_MAX` of 1. -/
theorem witness_ErrorStatusCauses :
    (operation ⟨1⟩ ⟨.dec, 0, 0, 7⟩ [0, 0, 0, 7, 0, 0, 0]).2.status = .eShort ∧
    (operation ⟨1⟩ ⟨.dec, 0, 0, 8⟩ [0, 0, 0, 9, 0, 0, 0, 0]).2.status = .eLength ∧
    (operation ⟨1⟩ ⟨.dec, 0, 0, 8⟩ [0, 0, 0, 8, 0, 0, 0, 0]).2.status = .ok ∧
    (operation ⟨1⟩ ⟨.enc, 0, 0, 2⟩ [0, 0]).2.status = .ePayload ∧
    (operation ⟨1⟩ ⟨.enc, 0, 0, 1⟩ [0]).2.status = .ok := by decide
theorem witness_TransfersOfAnOperation : ([0x41, 0x42] : List Byte).length = (2 : Half).toNat := by decide
theorem witness_CommandAcceptance :
    State.reset.busy = false ∧ decHolding.busy = true ∧ (nextOf (step decHolding)).isSome = true := by decide
theorem witness_CsumVfyInputStep :
    ∀ op ∈ [Op.csum, Op.vfy], (busyWith ⟨op, 1, 0x99, 2⟩ 1 0 7).busy = true ∧
      (busyWith ⟨op, 1, 0x99, 2⟩ 1 0 7).latched = ⟨op, 1, 0x99, 2⟩ ∧
      (busyWith ⟨op, 1, 0x99, 2⟩ 1 0 7).icnt.toNat < (2 : Half).toNat := by decide
theorem witness_CsumCompletes :
    let s := busyWith ⟨.csum, 1, 0x99, 0⟩ 0 0 1
    s.busy = true ∧ s.latched = ⟨.csum, 1, 0x99, 0⟩ ∧ s.icnt = 0 ∧ s.holdFull = false ∧ s.resReady = true := by decide
theorem witness_VfyCompletes :
    let s := busyWith ⟨.vfy, 1, 1, 0⟩ 0 0 1
    s.busy = true ∧ s.latched = ⟨.vfy, 1, 1, 0⟩ ∧ s.icnt = 0 ∧ s.holdFull = false ∧ s.resReady = true := by decide
/-- Accepted at `PAYLOAD_MAX` and refused one above it. -/
theorem witness_EncInputStep :
    (busyWith ⟨.enc, 1, 0, 500⟩ 499 0 1).latched = ⟨.enc, 1, 0, 500⟩ ∧
    (busyWith ⟨.enc, 1, 0, 500⟩ 499 0 1).icnt.toNat < (500 : Half).toNat ∧
    (500 : Half).toNat ≤ (busyWith ⟨.enc, 1, 0, 500⟩ 499 0 1).cfg.payloadMax.val ∧
    (busyWith ⟨.enc, 1, 0, 501⟩ 500 0 1).latched = ⟨.enc, 1, 0, 501⟩ ∧
    (busyWith ⟨.enc, 1, 0, 501⟩ 500 0 1).icnt.toNat < (501 : Half).toNat ∧
    ¬ (501 : Half).toNat ≤ (busyWith ⟨.enc, 1, 0, 501⟩ 500 0 1).cfg.payloadMax.val := by decide
/-- A header byte and the last payload byte. -/
theorem witness_EncOutputStep :
    let s := { busyWith ⟨.enc, 1, 0, 1⟩ 1 8 0x42 with buf := [(0, 0x41)] }
    s.busy = true ∧ s.latched = ⟨.enc, 1, 0, 1⟩ ∧ (1 : Half).toNat ≤ s.cfg.payloadMax.val ∧ s.icnt = 1 ∧
    s.ocnt.toNat < 8 + (1 : Half).toNat ∧ s.outReady = true ∧ Memory.read s.buf 0 = some 0x41 ∧
    (busyWith ⟨.enc, 1, 0, 1⟩ 1 7 0x42).ocnt.toNat = 7 ∧ (busyWith ⟨.enc, 1, 0, 1⟩ 1 0 0x42).ocnt.toNat = 0 := by decide
theorem witness_EncCompletes :
    let s := busyWith ⟨.enc, 1, 0, 500⟩ 500 508 0x42
    let r := busyWith ⟨.enc, 1, 0, 501⟩ 501 0 1
    (s.busy = true ∧ s.latched = ⟨.enc, 1, 0, 500⟩ ∧ s.icnt = 500 ∧ s.holdFull = false ∧ s.resReady = true ∧
      (500 : Half).toNat ≤ s.cfg.payloadMax.val ∧ s.ocnt.toNat = 8 + (500 : Half).toNat) ∧
    (r.busy = true ∧ r.latched = ⟨.enc, 1, 0, 501⟩ ∧ r.icnt = 501 ∧ r.cfg.payloadMax.val < (501 : Half).toNat) := by
  decide
/-- A DEC of 10 bytes with the header of V29 after `n` bytes, and the next byte offered. -/
def decAt (n : Half) : State := { busyWith ⟨.dec, 0, 0, 10⟩ n 0 0 with hdr := headerAB, inQ := [0x41] }
/-- What DecInputStep assumes. -/
abbrev decInputHypotheses (s : State) (len : Half) : Prop :=
  s.busy = true ∧ s.latched = ⟨.dec, 0, 0, len⟩ ∧ s.icnt.toNat < len.toNat ∧
    ¬ (decPass s = true ∧ s.holdFull = true) ∧ s.inQ = [0x41]
/-- Each region of the input: bytes 3, 4, 7 and 8 of a frame, byte 8 of a mismatching one, and byte 6 of a short one. -/
theorem witness_DecInputStep :
    decInputHypotheses (decAt 3) 10 ∧ decInputHypotheses (decAt 4) 10 ∧ decInputHypotheses (decAt 7) 10 ∧
    decInputHypotheses (decAt 8) 10 ∧ decInputHypotheses { decAt 8 with rLen := 9 } 9 ∧
    decInputHypotheses { busyWith ⟨.dec, 0, 0, 7⟩ 6 0 0 with inQ := [0x41] } 7 := by decide
theorem decHolding_inv : Inv decHolding :=
  ⟨by decide, by decide, by decide, by decide, by decide, by decide, by decide, by decide, by decide, by decide,
    by decide⟩
theorem witness_DecOutputStep :
    Inv decHolding ∧ decHolding.busy = true ∧ decHolding.latched = ⟨.dec, 0, 0, 10⟩ ∧ decHolding.holdFull = true ∧
    decHolding.outReady = true := ⟨decHolding_inv, by decide⟩
/-- What DecCompletes assumes. -/
abbrev decResultHypotheses (s : State) (len : Half) : Prop :=
  s.busy = true ∧ s.latched = ⟨.dec, 0, 0, len⟩ ∧ s.icnt = len ∧ s.holdFull = false ∧ s.resReady = true
/-- The three results: 7 bytes; 8 bytes with another declared length; a matching frame. -/
theorem witness_DecCompletes :
    decResultHypotheses (busyWith ⟨.dec, 0, 0, 7⟩ 7 0 0) 7 ∧
    decResultHypotheses { busyWith ⟨.dec, 0, 0, 8⟩ 8 0 0 with hdr := headerAB } 8 ∧
    decResultHypotheses { decAt 10 with ocnt := 2 } 10 := by decide
theorem witness_FrameRowIsNoOperation :
    let s := { State.reset with cmdQ := [.header 0#64] }
    rstNow s = false ∧ s.busy = false ∧ s.cmdQ = [.header 0#64] := by decide
theorem witness_OtherCommandWaitsWhileBusy :
    decHolding.busy = true ∧ decHolding.latched ≠ ⟨.enc, 0, 0, 2⟩ := by decide
theorem witness_CsumVfyFrame :
    Instr.command? (.csum 0 0 2) = some ⟨.csum, 0, 0, 2⟩ ∧
    (nextOf (exec (.csum 0 0 2) (busyWith ⟨.csum, 0, 0, 2⟩ 2 0 0x83))).isSome = true ∧
    (nextOf (exec (.vfy 0 0 2) (busyWith ⟨.vfy, 0, 0, 2⟩ 2 0 0x83))).isSome = true := by decide
/-- A form that stores (a `T_IN`) and one that does not (a `T_RES`). -/
theorem witness_EncFrame :
    (nextOf (exec (.enc 0 0 2) { busyWith ⟨.enc, 0, 0, 2⟩ 0 0 0 with inQ := [0x41] })).isSome = true ∧
    enIn { busyWith ⟨.enc, 0, 0, 2⟩ 0 0 0 with inQ := [0x41] } = true ∧
    (nextOf (exec (.enc 0 0 501) (busyWith ⟨.enc, 0, 0, 501⟩ 501 0 0))).isSome = true ∧
    enIn (busyWith ⟨.enc, 0, 0, 501⟩ 501 0 0) = false := by decide
theorem witness_DecFrame :
    (nextOf (exec (.dec 0 0 10) decHolding)).isSome = true ∧ enIn decHolding = false ∧ decHolding.busy = true := by decide
theorem witness_StepRunsOfferedInstruction :
    let s := offered ⟨.vfy, 1, 1, 0⟩ []
    rstNow s = false ∧ s.busy = false ∧ s.cmdQ = [.command 0x30000000100010000#66] ∧
    decodeOffer (.command 0x30000000100010000#66) = .vfy 1 1 0 := by decide
theorem witness_StepContinuesLatchedCommand : rstNow decHolding = false ∧ decHolding.busy = true := by decide
theorem witness_PlacedTableWordRuns : decodeTableWord 72 0x1000000000000000A = some (.dec 0 0 10) := by decide
theorem witness_ResetStep : { decHolding with rstPlan := [0, 3] }.rstPlan = 0 :: [3] := rfl
theorem witness_PinsAroundReset : rstNow { decHolding with rstPlan := [0] } = true := by decide
theorem witness_PinsCarryTheTransferredWord :
    (nextOf (step decHolding)).map (fun t => t.trace) = some (decHolding.trace ++ [.out 0x41 false]) ∧
    (nextOf (step (busyWith ⟨.csum, 0, 0, 2⟩ 2 0 0x83))).map (fun t => t.trace) =
      some [.res ⟨true, .csum, .ok, 0, 0x83, 2⟩] := by decide
theorem witness_TransferHappensOnValidAndReady : Inv decHolding ∧ (nextOf (step decHolding)).isSome = true :=
  ⟨decHolding_inv, by decide⟩
theorem witness_ErrorResultsAreZero :
    (nextOf (step (busyWith ⟨.enc, 9, 0, 501⟩ 501 0 0))).map (fun t => t.trace) =
      some [.res ⟨false, .enc, .ePayload, 0, 0, 0⟩] := by decide
theorem witness_InvariantKept : Inv decHolding ∧ (nextOf (step decHolding)).isSome = true :=
  ⟨decHolding_inv, by decide⟩
/-- `decHolding` with the transfers that led to it. -/
theorem witness_TransfersStayOrdered :
    let ts : List Transfer := [.cmd ⟨.dec, 0, 0, 10⟩, .inp 0x00, .inp 0x83, .inp 0x00, .inp 0x0A, .inp 0, .inp 0,
      .inp 0, .inp 0, .inp 0x41]
    Inv { decHolding with trace := ts } ∧ Ordered { decHolding with trace := ts } ∧
    (nextOf (step { decHolding with trace := ts })).isSome = true :=
  ⟨⟨by decide, by decide, by decide, by decide, by decide, by decide, by decide, by decide, by decide, by decide,
    by decide⟩,
    by unfold Ordered; decide, by decide⟩
theorem witness_ExactlyOneChannelEnabled : Inv decHolding ∧ decHolding.busy = true ∧ enOut decHolding = true :=
  ⟨decHolding_inv, by decide⟩
/-- The host takes part, and each way it may not. -/
theorem witness_EngineNeverStuckByItself :
    Inv decHolding ∧ hostTakesPart decHolding = true ∧ hostTakesPart { decHolding with outReady := false } = false ∧
    hostTakesPart State.reset = false ∧ hostTakesPart (busyWith ⟨.csum, 0, 0, 1⟩ 0 0 0) = false ∧
    hostTakesPart { busyWith ⟨.csum, 0, 0, 0⟩ 0 0 0 with resReady := false } = false :=
  ⟨decHolding_inv, by decide⟩
theorem witness_CountersAdvanceByOne :
    Inv decHolding ∧ decHolding.busy = true ∧ rstNow decHolding = false ∧ (nextOf (step decHolding)).isSome = true :=
  ⟨decHolding_inv, by decide⟩
theorem witness_EarlyOffersWait : (nextOf (step decHolding)).isSome = true := by decide
/-- Two idle states with different registers and `buf`, and two busy ENC states that differ above `icnt`. -/
theorem witness_NothingLeaksBetweenOperations :
    (let s := State.reset
     let t := { State.reset with rSeq := 7, acc := 9, hdr := headerAB, buf := [(0, 1)] }
     s.busy = false ∧ t = { s with
      rOp := t.rOp, rSeq := t.rSeq, rCsum := t.rCsum, rLen := t.rLen, acc := t.acc, icnt := t.icnt, ocnt := t.ocnt,
      hdr := t.hdr, hold := t.hold, holdFull := t.holdFull, buf := t.buf }) ∧
    Alike { busyWith ⟨.enc, 0, 0, 2⟩ 1 0 0x41 with buf := [(0, 0x41)] }
      { busyWith ⟨.enc, 0, 0, 2⟩ 1 0 0x41 with buf := [(0, 0x41), (1, 0x99)] } :=
  ⟨⟨rfl, rfl⟩, ⟨rfl, rfl, rfl, rfl, rfl, rfl, rfl, rfl, rfl, by decide, by decide⟩⟩
theorem witness_OneRunPerOperation :
    let s := offered ⟨.enc, 0, 0, 2⟩ [0x41, 0x42, 0x7E]
    s.busy = false ∧ s.cmdQ = [.command (encodeCommand ⟨.enc, 0, 0, 2⟩)] ∧ s.inQ = [0x41, 0x42] ++ [0x7E] ∧
    ([0x41, 0x42] : List Byte).length = (2 : Half).toNat ∧ s.outReady = true ∧ s.resReady = true ∧ s.rstPlan = [] := by
  decide
/-- An ENC of two bytes in which the host supplies a byte before the command and one after it, and stalls on OUT. -/
def pausingHost : List RunEvent :=
  [.host (.supply 0x41), .host (.offer (encodeCommand ⟨.enc, 0, 0, 2⟩)), .host (.takeOut false), .step, .step,
    .host (.supply 0x42), .step]
theorem pausingHost_feeds (more rest : List Byte) (es : List RunEvent)
    (hs : suppliedBytes es ++ more = [0x41, 0x42] ++ rest)
    (ho : offeredWords es = [.command (encodeCommand ⟨.enc, 0, 0, 2⟩)]) (hn : ∀ n, .host (.planReset n) ∉ es) :
    Feeds ⟨.enc, 0, 0, 2⟩ [0x41, 0x42] more rest [] State.reset es :=
  ⟨rfl, ⟨rfl, hn⟩, ho, by decide, hs, fun _ => rfl⟩
/-- A run cut short of its end with a byte held back, and one that is complete. -/
theorem witness_TransferLevelRefinesOperationLevel :
    let cut := pausingHost.take 5
    let whole := pausingHost ++ completion [] 3 14
    (Feeds ⟨.enc, 0, 0, 2⟩ [0x41, 0x42] [0x42] [] [] State.reset cut ∧
      (nextOf (runEvents cut State.reset)).isSome = true ∧ stepCount cut = 2) ∧
    (Feeds ⟨.enc, 0, 0, 2⟩ [0x41, 0x42] [] [] [] State.reset whole ∧
      (nextOf (runEvents whole State.reset)).isSome = true ∧ stepCount whole = 14 ∧
      (operationTransfers State.reset.cfg ⟨.enc, 0, 0, 2⟩ [0x41, 0x42]).length = 14) :=
  ⟨⟨pausingHost_feeds _ _ _ (by decide) (by decide) (by simp [pausingHost]), by decide⟩,
    ⟨pausingHost_feeds _ _ _ (by decide) (by decide) (by simp [pausingHost, completion]), by decide⟩⟩
theorem witness_ProgramObservation :
    let p : Program := [(⟨.csum, 0, 0, 1⟩, [0x7E]), (⟨.vfy, 1, 1, 0⟩, [])]
    let s := { State.reset with cmdQ := Program.offers p, inQ := Program.input p }
    (∀ x ∈ p, x.2.length = x.1.len.toNat) ∧ s.busy = false ∧ s.cmdQ = Program.offers p ++ [] ∧
    s.inQ = Program.input p ++ [] ∧ s.outReady = true ∧ s.resReady = true ∧ s.rstPlan = [] := by decide
/-- The reset comes after the first transfer, and just before the last. -/
theorem witness_ResetAbortsAtAnyPoint :
    let s := { offered ⟨.csum, 0, 0, 1⟩ [0x7E] with rstPlan := [1] }
    s.busy = false ∧ s.cmdQ = [.command (encodeCommand ⟨.csum, 0, 0, 1⟩)] ∧ s.inQ = [0x7E] ++ [] ∧
    ([0x7E] : List Byte).length = (1 : Half).toNat ∧ s.outReady = true ∧ s.resReady = true ∧ s.rstPlan = [1] ∧
    1 < (operationTransfers s.cfg ⟨.csum, 0, 0, 1⟩ [0x7E]).length ∧
    2 < (operationTransfers s.cfg ⟨.csum, 0, 0, 1⟩ [0x7E]).length := by decide
/-- The run of witness_TransferLevelRefinesOperationLevel is of an accepted ENC; (a) and (b) at their bounds. -/
theorem witness_EncProperties :
    (2 : Half).toNat ≤ State.reset.cfg.payloadMax.val ∧ ([] : List Byte).length ≤ State.reset.cfg.payloadMax.val ∧
    ([] : List Byte).length ≤ 65527 := by decide
/-- A host move with and one without the premise on what is taken back, and none brings a reset. -/
theorem witness_HostMovesLeaveTheEngineAlone :
    HostMove.supply 1 ≠ .withdrawInput ∧ decHolding.inLeft = 0 ∧
    rstNow (hostMove .withdrawInput decHolding) = rstNow decHolding := by decide

end Sys2Proof.Tests
end

section
/-! PROOF. The layer under the obligations of the state and the runs: the counters, the plan of resets, the frame of a
`T_IN`, and what a `T_OUT` can do. -/

namespace Sys2Proof.Machine

variable {s t : State} {c : Command} {op : Op} {d : Byte}

/-! ### Counters and the plan of resets -/

/-- A 16-bit counter below its largest value counts without wrapping (R32). -/
theorem Half.succ_toNat {i : Half} (h : i.toNat < 65535) : (i + 1).toNat = i.toNat + 1 := by
  rw [BitVec.toNat_add]
  exact Nat.mod_eq_of_lt (by simpa using Nat.succ_lt_succ h)

/-- An input counter short of the length of the input counts without wrapping (R32). -/
theorem Half.succ_toNat_of_lt {i n : Half} (h : i.toNat < n.toNat) : (i + 1).toNat = i.toNat + 1 :=
  Half.succ_toNat (h.trans_le (Nat.le_of_lt_succ n.isLt))

theorem State.elapse_eq (s : State) : s.elapse = { s with rstPlan := s.rstPlan.modifyHead (· - 1) } := by
  cases h : s.rstPlan with
  | nil => cases s; simp_all [State.elapse]
  | cons n rest => rw [State.elapse_rstPlan_cons s n rest h]; rfl

theorem rstNow_of_nil (h : s.rstPlan = []) : rstNow s = false := by simp [rstNow, h]

theorem step_busy_exec (hr : rstNow s = false) (hb : s.busy = true) : step s = exec s.latched.toInstr s.elapse := by
  simp [step, hr, fetch_busy s hb]

/-! ### What the rule of a `T_IN` leaves unchanged -/

/-- The rule of a `T_IN` writes `acc`, `hdr`, `hold`, `hold_full` and `buf` only (R117, R134, R158). -/
theorem inputOf_frame (op : Op) (s : State) (d : Byte) :
    inputOf op s d = { s with
      acc := (inputOf op s d).acc, hdr := (inputOf op s d).hdr, hold := (inputOf op s d).hold
      holdFull := (inputOf op s d).holdFull, buf := (inputOf op s d).buf } := by
  cases op with
  | csum => rfl
  | vfy => rfl
  | enc => simp only [inputOf, encIn]; split <;> rfl
  | dec => simp only [inputOf, decIn]; split_ifs <;> rfl

@[simp] theorem inputOf_cfg : (inputOf op s d).cfg = s.cfg := by rw [inputOf_frame]
@[simp] theorem inputOf_busy : (inputOf op s d).busy = s.busy := by rw [inputOf_frame]
@[simp] theorem inputOf_latched : (inputOf op s d).latched = s.latched := by rw [inputOf_frame]; rfl
@[simp] theorem inputOf_rOp : (inputOf op s d).rOp = s.rOp := by rw [inputOf_frame]
@[simp] theorem inputOf_rLen : (inputOf op s d).rLen = s.rLen := by rw [inputOf_frame]
@[simp] theorem inputOf_icnt : (inputOf op s d).icnt = s.icnt := by rw [inputOf_frame]
@[simp] theorem inputOf_ocnt : (inputOf op s d).ocnt = s.ocnt := by rw [inputOf_frame]
@[simp] theorem inputOf_cmdQ : (inputOf op s d).cmdQ = s.cmdQ := by rw [inputOf_frame]
@[simp] theorem inputOf_inLeft : (inputOf op s d).inLeft = s.inLeft := by rw [inputOf_frame]
@[simp] theorem inputOf_outReady : (inputOf op s d).outReady = s.outReady := by rw [inputOf_frame]
@[simp] theorem inputOf_resReady : (inputOf op s d).resReady = s.resReady := by rw [inputOf_frame]
@[simp] theorem inputOf_rstPlan : (inputOf op s d).rstPlan = s.rstPlan := by rw [inputOf_frame]
@[simp] theorem inputOf_trace : (inputOf op s d).trace = s.trace := by rw [inputOf_frame]

@[simp] theorem encOk_input (op : Op) (s : State) (d : Byte) (rest : List Byte) :
    encOk ((inputOf op s d).consume d rest) = encOk s := by rw [inputOf_frame]; rfl

@[simp] theorem State.latched_consume (d : Byte) (rest : List Byte) : (s.consume d rest).latched = s.latched := rfl
@[simp] theorem State.latched_deliver (r : Result) : (s.deliver r).latched = s.latched := rfl

/-! ### The transfer of a busy engine -/

/-- Everything a `T_OUT` can do: ENC emits the byte that `ocnt` selects, DEC the byte in `hold` (R135, R159). -/
theorem outputOf_cases (h : outputOf op s = .next t) :
    (op = .enc ∧ encOk s = true ∧ s.icnt = s.rLen ∧ s.ocnt.toNat < 8 + s.rLen.toNat ∧
      ∃ b, encByte s = some b ∧ t = s.emit b (encLast s)) ∨
    (op = .dec ∧ t = s.emptyHold.emit s.hold (decLast s)) := by
  cases op with
  | enc => exact .inl ⟨rfl, encOut_cases h⟩
  | dec => exact .inr ⟨rfl, decOut_cases h⟩
  | csum => exact (noOut_ne_next (s := s) h).elim
  | vfy => exact (noOut_ne_next (s := s) h).elim

theorem encOut_eq_next (he : encOk s = true) (hi : s.icnt = s.rLen) (ho : s.ocnt.toNat < 8 + s.rLen.toNat) {b : Byte}
    (hbyte : encByte s = some b) : encOut s = .next (s.emit b (encLast s)) := by
  simp [encOut, he, hi, ho, hbyte]

theorem encOut_eq_fault (h : ¬ (encOk s = true ∧ s.icnt = s.rLen ∧ s.ocnt.toNat < 8 + s.rLen.toNat)) :
    encOut s = .fault .noStepEnabled := by
  unfold encOut
  exact if_neg (by simpa [and_assoc] using h)

end Sys2Proof.Machine
end

section
/-! PROOF. The engine invariant: it holds at reset, every step and every host move keeps it, and what follows from it of
the enabling conditions and of the counters. -/

namespace Sys2Proof.Machine

variable {s t : State}

/-! ### When the invariant holds -/

/-- While idle the invariant speaks of `buf` and of the host's side of IN only. -/
theorem Inv.of_idle (hb : s.busy = false) (hwf : Memory.wf s.buf) (hrange : ∀ x ∈ s.buf, x.1 < s.payloadMax)
    (hleft : s.inLeft ≤ s.inQ.length) : Inv s where
  bufWf := hwf
  bufRange := hrange
  icntLe := by simp [hb]
  holdPass := by simp [hb]
  encBuf := by simp [hb]
  encCount := by simp [hb]
  sumCount := by simp [hb]
  decCount := by simp [hb]
  decOnly := by simp [hb]
  shortHdr := by simp [hb]
  leftOver := by simpa [hb] using hleft

/-- The invariant does not speak of the host's side, of the plan of resets or of the transfers made, but for what may be
taken back. -/
theorem Inv.of_hostSide (h : Inv s) {q : List Offer} {i : List Byte} {l : Nat} {o r : Bool} {p : List Nat}
    {ts : List Transfer} (hl : l ≤ i.length ∧ (s.busy = true → l = 0)) :
    Inv { s with cmdQ := q, inQ := i, inLeft := l, outReady := o, resReady := r, rstPlan := p, trace := ts } :=
  ⟨h.bufWf, h.bufRange, h.icntLe, h.holdPass, h.encBuf, h.encCount, h.sumCount, h.decCount, h.decOnly, h.shortHdr, hl⟩

theorem Inv.elapse (h : Inv s) : Inv s.elapse := by
  rw [State.elapse_eq]
  exact h.of_hostSide h.leftOver

theorem Inv.after_tRst (h : Inv s) : Inv (tRst s) :=
  .of_idle rfl h.bufWf h.bufRange le_rfl

theorem Inv.deliver (h : Inv s) (r : Result) : Inv (s.deliver r) :=
  .of_idle rfl h.bufWf h.bufRange h.leftOver.1

/-- A `T_CMD` clears every register the invariant relates to the counters (R41). -/
theorem Inv.accept (h : Inv s) (c : Command) : Inv (s.accept c) where
  bufWf := h.bufWf
  bufRange := h.bufRange
  icntLe := by simp
  holdPass := by simp
  encBuf := by simp
  encCount := by simp
  sumCount := by simp
  decCount := by simp [decPass]
  decOnly := by simp
  shortHdr := by simp
  leftOver := by simp

/-- What the invariant says of an ENC in progress. -/
theorem Inv.of_enc (hop : s.rOp = .enc) (hwf : Memory.wf s.buf) (hrange : ∀ x ∈ s.buf, x.1 < s.payloadMax)
    (hi : s.icnt.toNat ≤ s.rLen.toNat)
    (hbuf : encOk s = true → ∀ k, k < s.icnt.toNat → (Memory.read s.buf k).isSome = true)
    (hcount : s.ocnt.toNat ≤ 8 + s.rLen.toNat ∧ (s.ocnt ≠ 0 → encOk s = true ∧ s.icnt = s.rLen))
    (hunused : s.hdr = zeroHdr ∧ s.hold = 0 ∧ s.holdFull = false)
    (hleft : s.inLeft ≤ s.inQ.length ∧ (s.busy = true → s.inLeft = 0)) : Inv s where
  bufWf := hwf
  bufRange := hrange
  icntLe := fun _ => hi
  holdPass := by simp [hunused]
  encBuf := fun _ => hbuf
  encCount := fun _ _ => hcount
  sumCount := by simp [hop]
  decCount := by simp [hop]
  decOnly := fun _ _ => hunused
  shortHdr := fun _ _ => hunused.1
  leftOver := hleft

/-- What the invariant says of a DEC in progress. -/
theorem Inv.of_dec (hop : s.rOp = .dec) (hwf : Memory.wf s.buf) (hrange : ∀ x ∈ s.buf, x.1 < s.payloadMax)
    (hi : s.icnt.toNat ≤ s.rLen.toNat) (hhold : s.holdFull = true → decPass s = true)
    (hcount : decPass s = true → s.icnt.toNat = s.ocnt.toNat + 8 + (if s.holdFull then 1 else 0))
    (hfail : decPass s = false → s.ocnt = 0) (hshort : s.rLen.toNat < 8 → s.hdr = zeroHdr)
    (hleft : s.inLeft ≤ s.inQ.length ∧ (s.busy = true → s.inLeft = 0)) : Inv s where
  bufWf := hwf
  bufRange := hrange
  icntLe := fun _ => hi
  holdPass := fun _ => hhold
  encBuf := by simp [encOk, hop]
  encCount := by simp [hop]
  sumCount := by simp [hop]
  decCount := fun _ _ => ⟨hcount, hfail⟩
  decOnly := by simp [hop]
  shortHdr := fun _ he => hshort ((decShort_iff s).mp he).2
  leftOver := hleft

/-- What the invariant says of a CSUM or VFY in progress. -/
theorem Inv.of_sum (hop : s.rOp = .csum ∨ s.rOp = .vfy) (hwf : Memory.wf s.buf)
    (hrange : ∀ x ∈ s.buf, x.1 < s.payloadMax) (hi : s.icnt.toNat ≤ s.rLen.toNat) (ho : s.ocnt = 0)
    (hunused : s.hdr = zeroHdr ∧ s.hold = 0 ∧ s.holdFull = false)
    (hleft : s.inLeft ≤ s.inQ.length ∧ (s.busy = true → s.inLeft = 0)) : Inv s where
  bufWf := hwf
  bufRange := hrange
  icntLe := fun _ => hi
  holdPass := by simp [hunused]
  encBuf := by rcases hop with hop | hop <;> simp [encOk, hop]
  encCount := by simp [ho]
  sumCount := fun _ _ => ho
  decCount := by rcases hop with hop | hop <;> simp [hop]
  decOnly := fun _ _ => hunused
  shortHdr := fun _ _ => hunused.1
  leftOver := hleft

/-! ### `T_IN` -/

/-- A `T_IN` of CSUM or VFY touches `acc` alone (R117). -/
theorem Inv.consume_sum (h : Inv s) (hb : s.busy = true) (hop : s.rOp = .csum ∨ s.rOp = .vfy)
    (hi : s.icnt.toNat < s.rLen.toNat) (d : Byte) (rest : List Byte) : Inv ((sumIn s d).consume d rest) := by
  have hn := Half.succ_toNat_of_lt hi
  have hdec : s.rOp ≠ .dec := by rcases hop with h | h <;> simp [h]
  refine .of_sum hop h.bufWf h.bufRange ?_ (h.sumCount hb hop) (h.decOnly hb hdec) ?_
  · exact hn.trans_le hi
  · simp [sumIn, h.leftOver.2 hb]

theorem Memory.isSome_read_write (m : Memory) (k j : Nat) (b : Byte) (h : j ≠ k → (Memory.read m j).isSome = true) :
    (Memory.read (Memory.write m k b) j).isSome = true := by
  by_cases hj : j = k
  · rw [hj, Memory.read_write_same]; rfl
  · rw [Memory.read_write_other m k j b hj]; exact h hj

/-- A `T_IN` of ENC writes cell `icnt` of `buf`, or nothing when the ENC is refused (R134). -/
theorem Inv.consume_enc (h : Inv s) (hb : s.busy = true) (hop : s.rOp = .enc) (hi : s.icnt.toNat < s.rLen.toNat)
    (d : Byte) (rest : List Byte) : Inv ((encIn s d).consume d rest) := by
  have hn := Half.succ_toNat_of_lt hi
  have ho : s.ocnt = 0 := by
    by_contra hne
    have := ((h.encCount hb hop).2 hne).2
    simp [this] at hi
  have hunused := h.decOnly hb (by simp [hop])
  cases he : encOk s with
  | false =>
    rw [encIn_refused s d he]
    refine .of_enc hop h.bufWf h.bufRange (hn.trans_le hi) ?_ ?_ hunused ?_
    · exact fun ht => absurd (he.symm.trans ht) (by simp)
    · simp [ho]
    · simp [h.leftOver.2 hb]
  | true =>
    rw [encIn_accepted s d he]
    refine .of_enc hop (Memory.write_wf _ _ _ h.bufWf) ?_ (hn.trans_le hi) ?_ ?_ hunused ?_
    · intro x hx
      rcases Memory.mem_write _ _ _ x hx with hx | hx
      · have : s.rLen.toNat ≤ s.payloadMax := ((encOk_iff s).mp he).2
        exact hx ▸ hi.trans_le this
      · exact h.bufRange x hx
    · intro _ k hk
      have hk : k < s.icnt.toNat + 1 := hn ▸ hk
      exact Memory.isSome_read_write _ _ _ _ fun hne => h.encBuf hb he k (by omega)
    · simp [ho]
    · simp [h.leftOver.2 hb]

/-- `dec_pass` before the eighth input byte is false (R38). -/
theorem decPass_eq_false_of_icnt (hi : s.icnt.toNat < 8) : decPass s = false := by
  simp [decPass, Nat.not_le.mpr hi]

theorem decPass_eq_false_of_declared (h : declared s ≠ s.rLen) : decPass s = false := by
  simp [decPass, h]

/-- A header byte goes to `hdr`, and to no other register but `acc` (R158). -/
theorem decIn_header (s : State) (d : Byte) (h : 8 ≤ s.rLen.toNat) (hi : s.icnt.toNat < 8) :
    ∃ a, decIn s d = { s.writeHdr d with acc := a } := by
  by_cases h4 : s.icnt.toNat < 4
  · exact ⟨s.acc, decIn_header_low s d h h4⟩
  · exact ⟨accAdd s.acc d, decIn_header_high s d h (Nat.not_lt.mp h4) hi⟩

/-- A drained byte of a failing DEC is only counted (R158). -/
theorem Inv.consume_drained (h : Inv s) (hb : s.busy = true) (hop : s.rOp = .dec) (hi : s.icnt.toNat < s.rLen.toNat)
    (hhold : s.holdFull = false) (d : Byte) (rest : List Byte) (hp : decPass s = false)
    (hp' : decPass (s.consume d rest) = false) : Inv (s.consume d rest) := by
  refine .of_dec hop h.bufWf h.bufRange ((Half.succ_toNat_of_lt hi).trans_le hi) (by simp [hhold]) (by simp [hp'])
    (fun _ => (h.decCount hb hop).2 hp) ?_ ?_
  · exact fun hs => h.shortHdr hb ((decShort_iff s).mpr ⟨hop, hs⟩)
  · simp [h.leftOver.2 hb]

/-- A `T_IN` of DEC fills the header, then holds payload bytes of a matching frame; it changes `dec_pass` only when it
completes the header (R158). -/
theorem Inv.consume_dec (h : Inv s) (hb : s.busy = true) (hop : s.rOp = .dec) (hin : enIn s = true)
    (d : Byte) (rest : List Byte) : Inv ((decIn s d).consume d rest) := by
  obtain ⟨-, hi, hfree⟩ := (enIn_iff s).mp hin
  have hn := Half.succ_toNat_of_lt hi
  obtain ⟨hcount, hfail⟩ := h.decCount hb hop
  have hhold : s.holdFull = false := by
    by_contra hf
    exact hfree ⟨h.holdPass hb (by simpa using hf), by simpa using hf⟩
  by_cases hlen : 8 ≤ s.rLen.toNat
  · by_cases h8 : s.icnt.toNat < 8
    · obtain ⟨a, ha⟩ := decIn_header s d hlen h8
      have ho : s.ocnt = 0 := hfail (decPass_eq_false_of_icnt h8)
      rw [ha]
      refine .of_dec hop h.bufWf h.bufRange (hn.trans_le hi) (by simp [hhold]) ?_ (fun _ => ho) ?_ ?_
      · intro hp
        have h9 : 8 ≤ (s.icnt + 1).toNat := ((decPass_iff _).mp hp).2.2.1
        have : (s.icnt + 1).toNat = 8 := by omega
        simpa [hhold, ho] using this
      · exact fun hs => absurd hlen (Nat.not_le.mpr hs)
      · simp [h.leftOver.2 hb]
    · by_cases hd : declared s = s.rLen
      · have hp : decPass s = true := (decPass_iff s).mpr ⟨hop, hlen, Nat.not_lt.mp h8, hd⟩
        rw [decIn_payload s d hlen (by omega) hd]
        have hp' : decPass (((s.fillHold d).addAcc d).consume d rest) = true :=
          (decPass_iff _).mpr ⟨hop, hlen, (Nat.not_lt.mp h8).trans (hn ▸ Nat.le_succ _), hd⟩
        refine .of_dec hop h.bufWf h.bufRange (hn.trans_le hi) (fun _ => hp') ?_ ?_ ?_ ?_
        · intro _
          change (s.icnt + 1).toNat = s.ocnt.toNat + 8 + 1
          rw [hn, hcount hp, hhold]
          rfl
        · simp [hp']
        · exact fun hs => absurd hlen (Nat.not_le.mpr hs)
        · simp [h.leftOver.2 hb]
      · rw [decIn_mismatch s d hlen (by omega) hd]
        exact h.consume_drained hb hop hi hhold d rest (decPass_eq_false_of_declared hd) (decPass_eq_false_of_declared hd)
  · rw [decIn_short s d (by omega)]
    exact h.consume_drained hb hop hi hhold d rest (by simp [decPass, hlen]) (by simp [decPass, hlen])

/-- The `T_IN` of every operation keeps the invariant. -/
theorem Inv.consume (h : Inv s) (hin : enIn s = true) (d : Byte) (rest : List Byte) :
    Inv ((inputOf s.rOp s d).consume d rest) := by
  obtain ⟨hb, hi, -⟩ := (enIn_iff s).mp hin
  cases hop : s.rOp with
  | enc => exact h.consume_enc hb hop hi d rest
  | dec => exact h.consume_dec hb hop hin d rest
  | csum => exact h.consume_sum hb (.inl hop) hi d rest
  | vfy => exact h.consume_sum hb (.inr hop) hi d rest

/-! ### `T_OUT` -/

/-- A `T_OUT` of ENC advances `ocnt` below `8 + r_len`, with the input complete (R135). -/
theorem Inv.emit_enc (h : Inv s) (hb : s.busy = true) (he : encOk s = true) (hi : s.icnt = s.rLen)
    (ho : s.ocnt.toNat < 8 + s.rLen.toNat) (b : Byte) (last : Bool) : Inv (s.emit b last) := by
  obtain ⟨hop, hlen⟩ := (encOk_iff s).mp he
  have hmax : s.payloadMax < 65528 := s.cfg.payloadMax.isLt
  have hn : (s.ocnt + 1).toNat = s.ocnt.toNat + 1 := Half.succ_toNat (by omega)
  refine .of_enc hop h.bufWf h.bufRange (h.icntLe hb) (h.encBuf hb) ⟨?_, fun _ => ⟨he, hi⟩⟩
    (h.decOnly hb (by simp [hop])) h.leftOver
  exact hn.trans_le ho

/-- The payload byte in `hold` is the one consumed and not yet emitted (R39(e)). -/
theorem Inv.icnt_of_holdFull (h : Inv s) (hb : s.busy = true) (hf : s.holdFull = true) :
    s.icnt.toNat = s.ocnt.toNat + 9 := by
  have hp := h.holdPass hb hf
  simpa [hf] using (h.decCount hb ((decPass_iff s).mp hp).1).1 hp

/-- A `T_OUT` of DEC empties `hold` and advances `ocnt`, which stays 8 behind `icnt` (R159). -/
theorem Inv.emit_dec (h : Inv s) (hb : s.busy = true) (hf : s.holdFull = true) (b : Byte) (last : Bool) :
    Inv (s.emptyHold.emit b last) := by
  have hp := h.holdPass hb hf
  obtain ⟨hop, hlen, -⟩ := (decPass_iff s).mp hp
  have hi := h.icnt_of_holdFull hb hf
  have hn : (s.ocnt + 1).toNat = s.ocnt.toNat + 1 := Half.succ_toNat (by have := s.icnt.isLt; omega)
  refine .of_dec hop h.bufWf h.bufRange (h.icntLe hb) (by simp) (fun _ => ?_) ?_ ?_ h.leftOver
  · change s.icnt.toNat = (s.ocnt + 1).toNat + 8
    omega
  · exact fun hp' => absurd (hp.symm.trans hp') (by simp)
  · exact fun hs => absurd hlen (Nat.not_le.mpr hs)

/-- Outside ENC the one cause of an output is a full `hold` (R39). -/
theorem holdFull_of_enOut (hop : s.rOp ≠ .enc) (h : enOut s = true) : s.holdFull = true := by
  obtain ⟨-, he | hf⟩ := (enOut_iff s).mp h
  · exact absurd ((encOk_iff s).mp he.1).1 hop
  · exact hf

/-- The `T_OUT` of every operation keeps the invariant. -/
theorem Inv.output (h : Inv s) (hout : enOut s = true) (ht : outputOf s.rOp s = .next t) : Inv t := by
  have hb := ((enOut_iff s).mp hout).1
  rcases outputOf_cases ht with ⟨-, he, hi, ho, b, -, rfl⟩ | ⟨hop, rfl⟩
  · exact h.emit_enc hb he hi ho b _
  · exact h.emit_dec hb (holdFull_of_enOut (by simp [hop]) hout) _ _

/-! ### Every step and every host move -/

/-- A channel step of the operation in progress keeps the invariant. -/
theorem Inv.after_channelStep (h : Inv s)
    (ht : channelStep s.latched (inputOf s.rOp) (outputOf s.rOp) (resultOf s.rOp) s = .next t) : Inv t := by
  rcases channelStep_cases ht with
    ⟨-, rfl⟩ | ⟨-, -, hin, d, rest, -, rfl⟩ | ⟨-, -, -, hout, -, ho⟩ | ⟨-, -, -, -, -, -, rfl⟩
  · exact h.accept _
  · exact h.consume hin d rest
  · exact h.output hout ho
  · exact h.deliver _

theorem Inv.after_step (h : Inv s) (ht : step s = .next t) : Inv t := by
  rcases step_cases ht with ⟨-, rfl⟩ | ⟨-, hb, w, rest, -, rfl⟩ | ⟨-, hb, hc⟩
  · exact h.after_tRst
  · exact (h.elapse.of_hostSide h.elapse.leftOver).accept _
  · refine h.elapse.after_channelStep ?_
    simpa using hc

theorem Inv.after_hostMove (h : Inv s) (m : HostMove) : Inv (hostMove m s) := by
  obtain ⟨hle, hz⟩ := h.leftOver
  cases m with
  | supply d => exact h.of_hostSide ⟨hle.trans (by simp), hz⟩
  | withdrawInput => exact h.of_hostSide ⟨Nat.zero_le _, fun _ => rfl⟩
  | offer w => exact h.of_hostSide h.leftOver
  | takeOut r => exact h.of_hostSide h.leftOver
  | takeRes r => exact h.of_hostSide h.leftOver
  | planReset n => exact h.of_hostSide h.leftOver

/-- Settles O48, from the lemmas that each kind of transfer, the reset and each host move keep the invariant. -/
theorem invariantKept : Obligations.InvariantKept :=
  fun _ h => ⟨fun _ => h.after_step, h.after_hostMove⟩

/-- Settles O47: the reset state is idle, lists nothing in `buf` and has made no transfer. -/
theorem invariantAtReset : Obligations.InvariantAtReset :=
  ⟨.of_idle rfl Memory.reset_wf (by simp [State.reset]) le_rfl, rfl⟩

end Sys2Proof.Machine
end

section
/-! PROOF. What the engine invariant says of the enabling conditions (R39), of the stops (R222) and of the counters
(R33). -/

namespace Sys2Proof.Machine

variable {s t : State}

/-! ### Exactly one enabling condition (R39) -/

theorem enIn_of_lt (hb : s.busy = true) (hi : s.icnt.toNat < s.rLen.toNat) (hf : s.holdFull = false) :
    enIn s = true := (enIn_iff s).mpr ⟨hb, hi, by simp [hf]⟩

theorem enIn_eq_false_of_icnt (hi : s.icnt = s.rLen) : enIn s = false := by
  simp [enIn, hi]

theorem enRes_eq_false_of_lt (hi : s.icnt.toNat < s.rLen.toNat) : enRes s = false := by
  have : s.icnt ≠ s.rLen := fun h => by simp [h] at hi
  simp [enRes, this]

theorem enOut_eq_false_of_lt (hi : s.icnt.toNat < s.rLen.toNat) (hf : s.holdFull = false) : enOut s = false := by
  have : s.icnt ≠ s.rLen := fun h => by simp [h] at hi
  simp [enOut, this, hf]

/-- A full `hold` enables `T_OUT` alone. -/
theorem enabled_of_holdFull (hb : s.busy = true) (hp : decPass s = true) (hf : s.holdFull = true) :
    enIn s = false ∧ enOut s = true ∧ enRes s = false :=
  ⟨by simp [enIn, hp, hf], by simp [enOut, hb, hf], by simp [enRes, hf]⟩

/-- With the input complete and `hold` empty, an ENC with frame bytes left enables `T_OUT` alone, everything else `T_RES`
alone. -/
theorem enabled_of_complete (hb : s.busy = true) (hi : s.icnt = s.rLen) (hf : s.holdFull = false)
    (ho : encOk s = true → s.ocnt.toNat ≤ 8 + s.rLen.toNat) :
    (enOut s = true ∧ enRes s = false) ∨ (enOut s = false ∧ enRes s = true) := by
  by_cases hout : encOk s = true ∧ s.ocnt.toNat < 8 + s.rLen.toNat
  · exact .inl ⟨(enOut_iff s).mpr ⟨hb, .inl ⟨hout.1, hi, hout.2⟩⟩, by simp [enRes, hout.1, hout.2.ne]⟩
  · refine .inr ⟨?_, (enRes_iff s).mpr ⟨hb, hi, hf, fun he => ?_⟩⟩
    · rw [← Bool.not_eq_true, enOut_iff]
      rintro ⟨-, ⟨he, -, hlt⟩ | hf'⟩
      · exact hout ⟨he, hlt⟩
      · simp [hf] at hf'
    · exact le_antisymm (ho he) (Nat.not_lt.mp fun hlt => hout ⟨he, hlt⟩)

/-- R39(b) under the invariant. -/
theorem Inv.one_enabled (h : Inv s) (hb : s.busy = true) :
    (enIn s = true ∧ enOut s = false ∧ enRes s = false) ∨ (enIn s = false ∧ enOut s = true ∧ enRes s = false) ∨
      (enIn s = false ∧ enOut s = false ∧ enRes s = true) := by
  cases hf : s.holdFull with
  | true => exact .inr (.inl (enabled_of_holdFull hb (h.holdPass hb hf) hf))
  | false =>
    rcases (h.icntLe hb).lt_or_eq with hi | hi
    · exact .inl ⟨enIn_of_lt hb hi hf, enOut_eq_false_of_lt hi hf, enRes_eq_false_of_lt hi⟩
    · have hi : s.icnt = s.rLen := BitVec.eq_of_toNat_eq hi
      refine .inr ((enabled_of_complete hb hi hf fun he => ?_).imp ?_ ?_)
      · exact (h.encCount hb ((encOk_iff s).mp he).1).1
      · exact fun h => ⟨enIn_eq_false_of_icnt hi, h⟩
      · exact fun h => ⟨enIn_eq_false_of_icnt hi, h⟩

/-- While idle the engine takes part in CMD alone (R39(f)). -/
theorem enabled_of_idle (hb : s.busy = false) :
    enCmd s = true ∧ enIn s = false ∧ enOut s = false ∧ enRes s = false := by
  simp [enCmd, enIn, enOut, enRes, hb]

/-- Settles O50, by the position of `icnt` and by `hold_full`. -/
theorem exactlyOneChannelEnabled : Obligations.ExactlyOneChannelEnabled :=
  fun _ h => ⟨fun hb => ⟨by simp [enCmd, hb], h.one_enabled hb⟩, enabled_of_idle⟩

/-! ### Never stuck by itself (R39(c), R222) -/

@[simp] theorem enIn_elapse (s : State) : enIn s.elapse = enIn s := by rw [State.elapse_eq]; rfl
@[simp] theorem enOut_elapse (s : State) : enOut s.elapse = enOut s := by rw [State.elapse_eq]; rfl
@[simp] theorem enRes_elapse (s : State) : enRes s.elapse = enRes s := by rw [State.elapse_eq]; rfl
@[simp] theorem encOk_elapse (s : State) : encOk s.elapse = encOk s := by rw [State.elapse_eq]; rfl

/-- ENC has a byte to emit: `ocnt` selects a header byte or a cell the operation has written (R37, U1). -/
theorem Inv.exists_encByte (h : Inv s) (hb : s.busy = true) (he : encOk s = true) (hi : s.icnt = s.rLen)
    (ho : s.ocnt.toNat < 8 + s.rLen.toNat) : ∃ b, encByte s = some b := by
  unfold encByte
  split
  case h_9 k hk =>
    have hk' : k < s.icnt.toNat := by rw [hi]; omega
    simpa [bufRead, hk'] using Option.isSome_iff_exists.mp (h.encBuf hb he k hk')
  all_goals exact ⟨_, rfl⟩

/-- An enabled `T_OUT` has a rule and a byte to carry (R39(c)). -/
theorem Inv.exists_output (h : Inv s) (hout : enOut s = true) :
    ∃ t, outputOf s.rOp s = .next t := by
  obtain ⟨hb, hcase⟩ := (enOut_iff s).mp hout
  rcases hcase with ⟨he, hi, ho⟩ | hf
  · obtain ⟨b, hbyte⟩ := h.exists_encByte hb he hi ho
    rw [((encOk_iff s).mp he).1]
    exact ⟨_, encOut_eq_next he hi ho hbyte⟩
  · rw [((decPass_iff s).mp (h.holdPass hb hf)).1]
    exact ⟨_, rfl⟩

/-- What an idle engine answers when no reset is due: it accepts a command word, and anything else stops it. -/
theorem step_idle_outcome (hr : rstNow s = false) (hb : s.busy = false) :
    (cmdValid s = true ∧ ∃ t, step s = .next t) ∨
    (cmdValid s = false ∧
      (s.cmdQ = [] ∧ step s = .fault .quiescent ∨ s.cmdQ ≠ [] ∧ step s = .refused .notAnOperation)) := by
  cases hq : s.cmdQ with
  | nil => exact .inr ⟨by simp [cmdValid, hq], .inl ⟨rfl, step_idle_nil hr hb hq⟩⟩
  | cons o rest =>
    have hs := step_idle_cons hr hb o rest hq
    cases o with
    | command w =>
      rw [decodeOffer, exec_toInstr, channelStep_idle (by simpa using hb)] at hs
      exact .inl ⟨by simp [cmdValid, hq], _, hs⟩
    | header x => exact .inr ⟨by simp [cmdValid, hq], .inr ⟨by simp, hs⟩⟩

section BusyStep

variable (hr : rstNow s = false) (hb : s.busy = true)
include hr hb

/-- What a busy engine that waits for input answers. -/
theorem step_in_outcome (hin : enIn s = true) :
    (inValid s = true ∧ ∃ t, step s = .next t) ∨ (inValid s = false ∧ s.inQ = [] ∧ step s = .fault .inputStarved) := by
  rw [step_busy hr hb]
  cases hq : s.inQ with
  | nil => exact .inr ⟨by simp [inValid, hq], rfl, by simp [channelStep, hb, hin, hq]⟩
  | cons d rest =>
    exact .inl ⟨by simp [inValid, hq], _, channelStep_in (by simpa) (by simp) (by simpa) d rest (by simpa)⟩

/-- What a busy engine with an output byte answers. -/
theorem step_out_outcome (h : Inv s) (hin : enIn s = false) (hout : enOut s = true) :
    (s.outReady = true ∧ ∃ t, step s = .next t) ∨ (s.outReady = false ∧ step s = .fault .outputRefused) := by
  rw [step_busy hr hb]
  cases hready : s.outReady with
  | false => exact .inr ⟨rfl, by simp [channelStep, hb, hin, hout, hready]⟩
  | true =>
    rw [channelStep_out (by simpa) (by simp) (by simpa) (by simpa) (by simpa)]
    obtain ⟨t, ht⟩ := h.elapse.exists_output (by simpa)
    exact .inl ⟨rfl, t, by simpa using ht⟩

/-- What a busy engine with a result answers. -/
theorem step_res_outcome (hin : enIn s = false) (hout : enOut s = false) (hres : enRes s = true) :
    (s.resReady = true ∧ ∃ t, step s = .next t) ∨ (s.resReady = false ∧ step s = .fault .resultRefused) := by
  rw [step_busy hr hb]
  cases hready : s.resReady with
  | false => exact .inr ⟨rfl, by simp [channelStep, hb, hin, hout, hres, hready]⟩
  | true =>
    exact .inl ⟨rfl, _, channelStep_res (by simpa) (by simp) (by simpa) (by simpa) (by simpa) (by simpa)⟩

end BusyStep

/-- With no reset due, a step happens exactly when the host takes part; otherwise the stop names what it withholds. -/
theorem Inv.step_outcome (h : Inv s) (hr : rstNow s = false) :
    (hostTakesPart s = true ∧ ∃ t, step s = .next t) ∨
    (hostTakesPart s = false ∧
      ((s.busy = false ∧ s.cmdQ = [] ∧ step s = .fault .quiescent) ∨
       (s.busy = false ∧ s.cmdQ ≠ [] ∧ step s = .refused .notAnOperation) ∨
       (enIn s = true ∧ s.inQ = [] ∧ step s = .fault .inputStarved) ∨
       (enOut s = true ∧ s.outReady = false ∧ step s = .fault .outputRefused) ∨
       (enRes s = true ∧ s.resReady = false ∧ step s = .fault .resultRefused))) := by
  cases hb : s.busy with
  | false =>
    obtain ⟨hcmd, hin, hout, hres⟩ := enabled_of_idle hb
    have hpart : hostTakesPart s = cmdValid s := by simp [hostTakesPart, hcmd, hin, hout, hres]
    simpa [hpart, hb, hin, hout, hres] using step_idle_outcome hr hb
  | true =>
    have hcmd : enCmd s = false := by simp [enCmd, hb]
    rcases h.one_enabled hb with ⟨hin, hout, hres⟩ | ⟨hin, hout, hres⟩ | ⟨hin, hout, hres⟩
    · have hpart : hostTakesPart s = inValid s := by simp [hostTakesPart, hcmd, hin, hout, hres]
      simpa [hpart, hb, hin, hout, hres] using step_in_outcome hr hb hin
    · have hpart : hostTakesPart s = s.outReady := by simp [hostTakesPart, hcmd, hin, hout, hres]
      simpa [hpart, hb, hin, hout, hres] using step_out_outcome hr hb h hin hout
    · have hpart : hostTakesPart s = s.resReady := by simp [hostTakesPart, hcmd, hin, hout, hres]
      simpa [hpart, hb, hin, hout, hres] using step_res_outcome hr hb hin hout hres

/-- Settles O51: a reset is always taken, and otherwise the one enabled channel decides. -/
theorem engineNeverStuckByItself : Obligations.EngineNeverStuckByItself := by
  intro s h
  refine ⟨fun hgo => ?_, fun hr hpart => ?_⟩
  · cases hr : rstNow s with
    | true => exact ⟨_, step_rst hr⟩
    | false =>
      rcases h.step_outcome hr with ⟨-, hnext⟩ | ⟨hpart, -⟩
      · exact hnext
      · simp [hr, hpart] at hgo
  · rcases h.step_outcome hr with ⟨hpart', -⟩ | ⟨-, hstop⟩
    · simp [hpart] at hpart'
    · exact hstop

/-! ### The counters (R32, R33) -/

/-- An enabled `T_OUT` advances `ocnt` without wrapping and nothing else of the progress (R33). -/
theorem Inv.output_counts (h : Inv s) (hout : enOut s = true) (ht : outputOf s.rOp s = .next t) :
    t.latched = s.latched ∧ t.busy = s.busy ∧ t.icnt = s.icnt ∧ t.ocnt.toNat = s.ocnt.toNat + 1 := by
  have hb := ((enOut_iff s).mp hout).1
  rcases outputOf_cases ht with ⟨-, he, -, ho, b, -, rfl⟩ | ⟨hop, rfl⟩
  · have hlen := ((encOk_iff s).mp he).2
    have hmax : s.payloadMax < 65528 := s.cfg.payloadMax.isLt
    exact ⟨rfl, rfl, rfl, Half.succ_toNat (by omega)⟩
  · have hi := h.icnt_of_holdFull hb (holdFull_of_enOut (by simp [hop]) hout)
    have hn : (s.ocnt + 1).toNat = s.ocnt.toNat + 1 := Half.succ_toNat (by have := s.icnt.isLt; omega)
    exact ⟨rfl, rfl, rfl, hn⟩

/-- Settles O52, by the kind of the transfer: `T_IN`, `T_OUT` or `T_RES`. -/
theorem countersAdvanceByOne : Obligations.CountersAdvanceByOne := by
  intro s t h hb hr ht
  rw [step_busy hr hb] at ht
  rcases channelStep_cases ht with
    ⟨hidle, -⟩ | ⟨-, -, hin, d, rest, -, rfl⟩ | ⟨-, -, -, hout, -, ho⟩ | ⟨-, -, -, -, -, -, rfl⟩
  · simp [hb] at hidle
  · have hi := ((enIn_iff _).mp hin).2.1
    refine ⟨by simp, .inl ⟨by simpa, ?_, by simp⟩⟩
    simpa using Half.succ_toNat_of_lt hi
  · have hcounts := h.elapse.output_counts hout (by simpa using ho)
    simp only [State.latched_elapse, State.elapse_busy, State.elapse_icnt, State.elapse_ocnt, hb] at hcounts
    obtain ⟨hc, hbusy, hicnt, hocnt⟩ := hcounts
    exact ⟨hc, .inr (.inl ⟨hbusy, hicnt, hocnt⟩)⟩
  · exact ⟨by simp, .inr (.inr ⟨by simp, by simp, by simp⟩)⟩

end Sys2Proof.Machine
end

section
/-! PROOF. Single steps of the machine: which instruction a step runs (R64), the acceptance of a command (R41) and the
values after reset (R47). -/

namespace Sys2Proof.Machine

variable {s t : State}

/-- Settles O38: `elapse` counts one transfer off the head of the plan. -/
theorem stepRunsOfferedInstruction : Obligations.StepRunsOfferedInstruction := by
  rintro s o rest _ hr hb hq rfl
  rw [step_idle_cons hr hb o rest hq, State.elapse_eq]

/-- Settles O39: a busy engine fetches the latched command. -/
theorem stepContinuesLatchedCommand : Obligations.StepContinuesLatchedCommand := by
  intro s hr hb
  rw [step_busy_exec hr hb, State.elapse_eq]

/-- The transfer a busy engine makes is no `T_CMD`: it is a reset, an input byte, an output byte or a result. -/
theorem step_busy_trace (hb : s.busy = true) (h : step s = .next t) :
    ∃ x, t.trace = s.trace ++ [x] ∧ ∀ c, x ≠ .cmd c := by
  rcases step_cases h with ⟨-, rfl⟩ | ⟨-, hidle, -⟩ | ⟨-, -, hc⟩
  · exact ⟨.rst, by simp⟩
  · simp [hb] at hidle
  · rcases channelStep_cases hc with
      ⟨hidle, -⟩ | ⟨-, -, -, d, rest, -, rfl⟩ | ⟨-, -, -, -, -, ho⟩ | ⟨-, -, -, -, -, -, rfl⟩
    · simp [hb] at hidle
    · exact ⟨.inp d, by simp⟩
    · rcases outputOf_cases ho with ⟨-, -, -, -, b, -, rfl⟩ | ⟨-, rfl⟩
      · exact ⟨.out b _, by rw [State.emit_trace, State.elapse_trace], by simp⟩
      · exact ⟨.out _ _, by rw [State.emit_trace, State.emptyHold_trace, State.elapse_trace], by simp⟩
    · exact ⟨.res _, by rw [State.deliver_trace, State.elapse_trace], by simp⟩

/-- Settles O23: the idle case of the shared channel step is `accept`, and no transfer of a busy engine is a `T_CMD`. -/
theorem commandAcceptance : Obligations.CommandAcceptance := by
  refine ⟨fun c s hb => ⟨0, ?_⟩, fun s t c hb ht hcmd => ?_⟩
  · rw [exec_toInstr, channelStep_idle hb]
    rfl
  · obtain ⟨x, hx, hne⟩ := step_busy_trace hb ht
    exact hne c (by simpa [hx] using hcmd)

/-- No rule of a `T_OUT` stops as `engineBusy`. -/
theorem outputOf_ne_engineBusy (op : Op) (s : State) : outputOf op s ≠ .fault .engineBusy := by
  cases op with
  | enc =>
    by_cases hc : encOk s = true ∧ s.icnt = s.rLen ∧ s.ocnt.toNat < 8 + s.rLen.toNat
    · cases hbyte : encByte s with
      | none => simp [outputOf, encOut, hc, hbyte]
      | some b => simp [outputOf, encOut_eq_next hc.1 hc.2.1 hc.2.2 hbyte]
    · simp [outputOf, encOut_eq_fault hc]
  | dec => simp [outputOf, decOut]
  | csum => simp [outputOf, noOut]
  | vfy => simp [outputOf, noOut]

/-- A channel step of the latched command never stops as `engineBusy`. -/
theorem channelStep_latched_ne_engineBusy (s : State) :
    channelStep s.latched (inputOf s.rOp) (outputOf s.rOp) (resultOf s.rOp) s ≠ .fault .engineBusy := by
  intro h
  simp only [channelStep, ne_eq, not_true_eq_false, if_false] at h
  split at h
  · cases h
  split at h
  · split at h <;> cases h
  split at h
  · split at h
    · exact outputOf_ne_engineBusy _ _ h
    · cases h
  split at h
  · split at h <;> cases h
  · cases h

/-- Settles O34: the shared channel step refuses another command, and `step` runs the latched one. -/
theorem otherCommandWaitsWhileBusy : Obligations.OtherCommandWaitsWhileBusy := by
  intro c s hb hc
  refine ⟨by rw [exec_toInstr, channelStep_other hb hc], ?_⟩
  cases hr : rstNow s with
  | true => simp [step_rst hr]
  | false =>
    have := channelStep_latched_ne_engineBusy s.elapse
    simpa [step_busy hr hb] using this

/-- Settles O42: every register of `State.reset` is 0 and `buf` lists no cell, so an idle engine with `en_cmd` alone. -/
theorem resetStateValues : Obligations.ResetStateValues := by
  refine ⟨⟨rfl, rfl, rfl, rfl, rfl, rfl, rfl, rfl, fun j hj => ?_, rfl, rfl, fun a => rfl⟩, enabled_of_idle rfl⟩
  simp [State.reset, zeroHdr]

end Sys2Proof.Machine
end

section
/-! PROOF. No state leaks from one operation to the next (R46, R20): steps of alike states are alike. -/

namespace Sys2Proof.Machine

variable {s t : State}

/-- Two memories agree on the cells the operation in progress has written. -/
def SameCells (s : State) (m : Memory) : Prop :=
  encOk s = true → ∀ k, k < s.icnt.toNat → Memory.read s.buf k = Memory.read m k

/-- Alike idle states agree on the parameter, on the host's side and on the transfers. -/
theorem Alike.of_idle (hb : s.busy = false) (hb' : t.busy = false) (cfg : s.cfg = t.cfg) (cmdQ : s.cmdQ = t.cmdQ)
    (inQ : s.inQ = t.inQ) (inLeft : s.inLeft = t.inLeft) (outReady : s.outReady = t.outReady)
    (resReady : s.resReady = t.resReady) (rstPlan : s.rstPlan = t.rstPlan) (trace : s.trace = t.trace) : Alike s t :=
  ⟨cfg, hb.trans hb'.symm, cmdQ, inQ, inLeft, outReady, resReady, rstPlan, trace, by simp [hb], by simp [hb]⟩

/-- `s` with other contents of `buf`. -/
def State.withBuf (s : State) (m : Memory) : State := { s with buf := m }

@[simp] theorem State.withBuf_busy (s : State) (m : Memory) : (s.withBuf m).busy = s.busy := rfl
@[simp] theorem State.withBuf_latched (s : State) (m : Memory) : (s.withBuf m).latched = s.latched := rfl
@[simp] theorem State.withBuf_rOp (s : State) (m : Memory) : (s.withBuf m).rOp = s.rOp := rfl
@[simp] theorem State.withBuf_rLen (s : State) (m : Memory) : (s.withBuf m).rLen = s.rLen := rfl
@[simp] theorem State.withBuf_icnt (s : State) (m : Memory) : (s.withBuf m).icnt = s.icnt := rfl
@[simp] theorem State.withBuf_ocnt (s : State) (m : Memory) : (s.withBuf m).ocnt = s.ocnt := rfl
@[simp] theorem State.withBuf_buf (s : State) (m : Memory) : (s.withBuf m).buf = m := rfl
@[simp] theorem State.withBuf_inQ (s : State) (m : Memory) : (s.withBuf m).inQ = s.inQ := rfl
@[simp] theorem State.withBuf_outReady (s : State) (m : Memory) : (s.withBuf m).outReady = s.outReady := rfl
@[simp] theorem State.withBuf_resReady (s : State) (m : Memory) : (s.withBuf m).resReady = s.resReady := rfl
@[simp] theorem encOk_withBuf (s : State) (m : Memory) : encOk (s.withBuf m) = encOk s := rfl
@[simp] theorem enIn_withBuf (s : State) (m : Memory) : enIn (s.withBuf m) = enIn s := rfl
@[simp] theorem enOut_withBuf (s : State) (m : Memory) : enOut (s.withBuf m) = enOut s := rfl
@[simp] theorem enRes_withBuf (s : State) (m : Memory) : enRes (s.withBuf m) = enRes s := rfl

/-- Alike busy states differ in `buf` only, in cells that the operation has not written. -/
theorem Alike.of_sameCells {m : Memory} (h : SameCells s m) : Alike s (s.withBuf m) :=
  ⟨rfl, rfl, rfl, rfl, rfl, rfl, rfl, rfl, rfl, fun _ => rfl, fun _ => h⟩

theorem Alike.eq_of_busy (h : Alike s t) (hb : s.busy = true) : t = s.withBuf t.buf ∧ SameCells s t.buf :=
  ⟨(congrArg (fun u : State => u.withBuf t.buf) (h.regs hb)).symm, h.cells hb⟩

/-! ### A channel step of a busy engine -/

/-- The cells written before the byte at `icnt` and that byte are the cells written after it. -/
theorem SameCells.write {m : Memory} (h : SameCells s m) (he : encOk s = true) (d : Byte) (k : Nat)
    (hk : k < s.icnt.toNat + 1) :
    Memory.read (Memory.write s.buf s.icnt.toNat d) k = Memory.read (Memory.write m s.icnt.toNat d) k := by
  by_cases hkn : k = s.icnt.toNat
  · rw [hkn, Memory.read_write_same, Memory.read_write_same]
  · rw [Memory.read_write_other _ _ _ _ hkn, Memory.read_write_other _ _ _ _ hkn]
    exact h he k (by omega)

/-- Outside an accepted ENC no cell of `buf` counts. -/
theorem SameCells.of_not_encOk {m : Memory} (h : encOk s = false) : SameCells s m :=
  fun he => absurd (h.symm.trans he) (by simp)

/-- Outside an accepted ENC a `T_IN` neither reads nor writes `buf`. -/
theorem inputOf_withBuf (h : encOk s = false) (m : Memory) (d : Byte) :
    inputOf s.rOp (s.withBuf m) d = (inputOf s.rOp s d).withBuf m := by
  cases s.rOp with
  | enc => simp only [inputOf, encIn, encOk_withBuf, h, Bool.false_eq_true, if_false]
  | dec =>
    simp only [inputOf, decIn, apply_ite (State.withBuf · m)]
    rfl
  | csum => rfl
  | vfy => rfl

/-- The `T_IN` of alike states. -/
theorem SameCells.input_alike {m : Memory} (h : SameCells s m) (hi : s.icnt.toNat < s.rLen.toNat) (d : Byte)
    (rest : List Byte) :
    Alike ((inputOf s.rOp s d).consume d rest) ((inputOf s.rOp (s.withBuf m) d).consume d rest) := by
  cases he : encOk s with
  | true =>
    simp only [((encOk_iff s).mp he).1, inputOf]
    rw [encIn_accepted s d he, encIn_accepted (s.withBuf m) d he]
    refine .of_sameCells fun _ k hk => h.write he d k ?_
    exact Half.succ_toNat_of_lt hi ▸ hk
  | false =>
    rw [inputOf_withBuf he]
    exact .of_sameCells (.of_not_encOk (by rwa [encOk_input]))

/-- The byte ENC emits is in a register or in a cell it has written. -/
theorem SameCells.encByte_eq {m : Memory} (h : SameCells s m) (he : encOk s = true) :
    encByte (s.withBuf m) = encByte s := by
  have hread : ∀ k, bufRead (s.withBuf m) k = bufRead s k := fun k => by
    by_cases hk : k < s.icnt.toNat
    · simpa [bufRead, hk] using (h he k hk).symm
    · simp [bufRead, hk]
  simp only [encByte, State.withBuf_ocnt, hread]
  rfl

/-- The `T_OUT` of alike states. -/
theorem SameCells.output_alike {m : Memory} (h : SameCells s m) :
    AlikeOutcome (outputOf s.rOp s) (outputOf s.rOp (s.withBuf m)) := by
  cases s.rOp with
  | enc =>
    by_cases hc : encOk s = true ∧ s.icnt = s.rLen ∧ s.ocnt.toNat < 8 + s.rLen.toNat
    · obtain ⟨he, hi, ho⟩ := hc
      have hbyte' := h.encByte_eq he
      cases hbyte : encByte s with
      | none => simp [outputOf, encOut, he, hi, ho, hbyte', hbyte, AlikeOutcome]
      | some b =>
        simp only [outputOf]
        rw [encOut_eq_next he hi ho hbyte, encOut_eq_next (s := s.withBuf m) he hi ho (hbyte'.trans hbyte)]
        exact .of_sameCells h
    · simp only [outputOf]
      rw [encOut_eq_fault hc, encOut_eq_fault (s := s.withBuf m) hc]
      rfl
  | dec => exact .of_sameCells h
  | csum => rfl
  | vfy => rfl

/-- The rule of a `T_RES` does not read `buf`. -/
theorem resultOf_withBuf (op : Op) (s : State) (m : Memory) : resultOf op (s.withBuf m) = resultOf op s := by
  cases op <;> rfl

/-- The channel step of alike busy states. -/
theorem SameCells.channelStep_alike {m : Memory} (h : SameCells s m) (hb : s.busy = true) :
    AlikeOutcome (channelStep s.latched (inputOf s.rOp) (outputOf s.rOp) (resultOf s.rOp) s)
      (channelStep s.latched (inputOf s.rOp) (outputOf s.rOp) (resultOf s.rOp) (s.withBuf m)) := by
  cases hin : enIn s with
  | true =>
    cases hq : s.inQ with
    | nil => simp [channelStep, hb, hin, hq, AlikeOutcome]
    | cons d rest =>
      rw [channelStep_in hb rfl hin d rest hq, channelStep_in (s := s.withBuf m) hb (s.withBuf_latched m) hin d rest hq]
      exact h.input_alike ((enIn_iff s).mp hin).2.1 d rest
  | false =>
    cases hout : enOut s with
    | true =>
      cases hr : s.outReady with
      | false => simp [channelStep, hb, hin, hout, hr, AlikeOutcome]
      | true =>
        rw [channelStep_out hb rfl hin hout hr, channelStep_out (s := s.withBuf m) hb (s.withBuf_latched m) hin hout hr]
        exact h.output_alike
    | false =>
      cases hres : enRes s with
      | false => simp [channelStep, hb, hin, hout, hres, AlikeOutcome]
      | true =>
        cases hr : s.resReady with
        | false => simp [channelStep, hb, hin, hout, hres, hr, AlikeOutcome]
        | true =>
          rw [channelStep_res hb rfl hin hout hres hr,
            channelStep_res (s := s.withBuf m) hb (s.withBuf_latched m) hin hout hres hr, resultOf_withBuf]
          exact .of_idle rfl rfl rfl rfl rfl rfl rfl rfl rfl rfl

/-! ### A step of the machine -/

theorem Alike.tRst (h : Alike s t) : Alike (tRst s) (tRst t) :=
  .of_idle rfl rfl h.cfg h.cmdQ h.inQ (congrArg List.length h.inQ) h.outReady h.resReady
    (congrArg List.tail h.rstPlan) (congrArg (· ++ _) h.trace)

/-- A `T_CMD` loads or clears every register, so what they held does not matter (R41). -/
theorem Alike.accept (h : Alike s t) (c : Command) (rest : List Offer) :
    Alike ({ s.elapse with cmdQ := rest }.accept c) ({ t.elapse with cmdQ := rest }.accept c) := by
  simp only [State.elapse_eq]
  exact ⟨h.cfg, rfl, rfl, h.inQ, rfl, h.outReady, h.resReady, congrArg (List.modifyHead (· - 1)) h.rstPlan,
    congrArg (· ++ _) h.trace, fun _ => by
      simp [State.accept, h.cfg, h.inQ, h.outReady, h.resReady, h.rstPlan, h.trace], by simp⟩

/-- Idle alike states answer the same word in the same way. -/
theorem Alike.step_idle (h : Alike s t) (hr : rstNow s = false) (hr' : rstNow t = false) (hb : s.busy = false) :
    AlikeOutcome (step s) (step t) := by
  have hb' : t.busy = false := h.busy ▸ hb
  cases hq : s.cmdQ with
  | nil =>
    rw [step_idle_nil hr hb hq, step_idle_nil hr' hb' (h.cmdQ ▸ hq)]
    rfl
  | cons o rest =>
    rw [step_idle_cons hr hb o rest hq, step_idle_cons hr' hb' o rest (h.cmdQ ▸ hq)]
    cases o with
    | header x => rfl
    | command w =>
      rw [decodeOffer, exec_toInstr, exec_toInstr, channelStep_idle (by simpa using hb),
        channelStep_idle (by simpa using hb')]
      exact h.accept _ rest

theorem Alike.after_step (h : Alike s t) : AlikeOutcome (step s) (step t) := by
  have hrst : rstNow t = rstNow s := by simp [rstNow, h.rstPlan]
  cases hr : rstNow s with
  | true =>
    rw [step_rst hr, step_rst (hrst.trans hr)]
    exact h.tRst
  | false =>
    cases hb : s.busy with
    | false => exact h.step_idle hr (hrst.trans hr) hb
    | true =>
      obtain ⟨heq, hcells⟩ := h.eq_of_busy hb
      rw [step_busy hr hb, heq, step_busy (by exact hr) (by exact hb)]
      have helapse : (s.withBuf t.buf).elapse = s.elapse.withBuf t.buf := by
        rw [State.elapse_eq, State.elapse_eq]; rfl
      rw [helapse]
      have hcells' : SameCells s.elapse t.buf := by simpa [SameCells] using hcells
      simpa using hcells'.channelStep_alike (by simpa using hb)

/-- Settles O55: alike idle states need agree on the host's side only, and a step of alike states, be it a reset, an
acceptance or a channel step, leads to alike states. -/
theorem nothingLeaksBetweenOperations : Obligations.NothingLeaksBetweenOperations := by
  refine ⟨fun s t hb ht => ?_, fun _ _ h => h.after_step⟩
  have hfield {α : Type} (f : State → α) := congrArg f ht.symm
  exact .of_idle hb ((hfield State.busy).symm.trans hb) (hfield State.cfg) (hfield State.cmdQ) (hfield State.inQ)
    (hfield State.inLeft) (hfield State.outReady) (hfield State.resReady) (hfield State.rstPlan) (hfield State.trace)

end Sys2Proof.Machine
end

section
/-! PROOF. The functions of the operation level that the registers of a run compute: the command word, the running sum, the
frame bytes, and what the one sequence of transfers of an operation carries. -/

namespace Sys2Proof.Machine

/-! ### The command word -/

theorem opOfCode_opCode (op : Op) : opOfCode (opCode op) = op := by
  cases op <;> decide

/-- The decoder reads the command a word encodes (R90). -/
theorem decodeCommand_encodeCommand (c : Command) : decodeCommand (encodeCommand c) = c := by
  obtain ⟨op, seq, k, n⟩ := c
  have hop : (encodeCommand ⟨op, seq, k, n⟩).extractLsb' 64 2 = opCode op := by
    rw [encodeCommand, BitVec.extractLsb'_append_eq_of_le (by decide), BitVec.extractLsb'_append_eq_of_le (by decide),
      BitVec.extractLsb'_append_eq_of_le (by decide)]
    exact BitVec.extractLsb'_eq_self
  have hseq : (encodeCommand ⟨op, seq, k, n⟩).extractLsb' 32 32 = seq := by
    rw [encodeCommand, BitVec.extractLsb'_append_eq_of_le (by decide), BitVec.extractLsb'_append_eq_of_le (by decide),
      BitVec.extractLsb'_append_eq_of_add_le (by decide)]
    exact BitVec.extractLsb'_eq_self
  have hk : (encodeCommand ⟨op, seq, k, n⟩).extractLsb' 16 16 = k := by
    rw [encodeCommand, BitVec.extractLsb'_append_eq_of_le (by decide),
      BitVec.extractLsb'_append_eq_of_add_le (by decide)]
    exact BitVec.extractLsb'_eq_self
  have hn : (encodeCommand ⟨op, seq, k, n⟩).extractLsb' 0 16 = n := by
    rw [encodeCommand, BitVec.extractLsb'_append_eq_of_add_le (by decide)]
    exact BitVec.extractLsb'_eq_self
  simp only [decodeCommand, hop, hseq, hk, hn, opOfCode_opCode]

/-! ### The running sum (R31, R113) -/

/-- The accumulator fed the bytes `P` is the exact sum, reduced once. -/
theorem foldl_accAdd_toNat (P : List Byte) (a : Byte) : (P.foldl accAdd a).toNat = (a.toNat + byteSum P) % 256 := by
  induction P generalizing a with
  | nil => simpa using (Nat.mod_eq_of_lt a.isLt).symm
  | cons b P ih => rw [List.foldl_cons, ih, accAdd_toNat, byteSum_cons]; omega

/-- Started at `seqsum` the accumulator ends at the checksum. -/
theorem foldl_accAdd_seqsum (seq : Seq) (P : List Byte) : P.foldl accAdd (seqsum seq) = checksum seq P :=
  BitVec.eq_of_toNat_eq (by rw [foldl_accAdd_toNat, checksum_toNat])

/-- The bytes of a sequence number that four bytes spell are these. -/
theorem extract_be32 (a b c d : Byte) :
    (be32 a b c d).extractLsb' 24 8 = a ∧ (be32 a b c d).extractLsb' 16 8 = b ∧
    (be32 a b c d).extractLsb' 8 8 = c ∧ (be32 a b c d).extractLsb' 0 8 = d := by
  have ha := a.isLt
  have hb := b.isLt
  have hc := c.isLt
  have hd := d.isLt
  have h (k : Nat) (x : Byte) (hx : (be32 a b c d).toNat / 2 ^ k % 2 ^ 8 = x.toNat) :
      (be32 a b c d).extractLsb' k 8 = x :=
    BitVec.eq_of_toNat_eq (by rw [BitVec.extractLsb'_toNat, Nat.shiftRight_eq_div_pow, hx])
  simp only [be32_toNat] at h
  exact ⟨h 24 a (by omega), h 16 b (by omega), h 8 c (by omega), h 0 d (by omega)⟩

/-- Started at 0 and fed the four bytes of a sequence number the accumulator is `seqsum`. -/
theorem foldl_accAdd_be32 (a b c d : Byte) : [a, b, c, d].foldl accAdd 0 = seqsum (be32 a b c d) := by
  obtain ⟨h3, h2, h1, h0⟩ := extract_be32 a b c d
  apply BitVec.eq_of_toNat_eq
  rw [foldl_accAdd_toNat, seqsum, h3, h2, h1, h0]
  simp [byteSum, Nat.add_assoc]

/-! ### The output marker (R59) -/

/-- An output byte is marked when none follows. -/
theorem markLast_cons (b : Byte) (bs : List Byte) : markLast (b :: bs) = (b, bs.isEmpty) :: markLast bs := by
  cases bs <;> rfl

/-! ### The frame bytes ENC emits (R130, R135) -/

theorem zext16_bytes (a : Byte) : (zext16 a).extractLsb' 8 8 = 0 ∧ (zext16 a).extractLsb' 0 8 = a := by
  have ha := a.isLt
  refine ⟨BitVec.eq_of_toNat_eq ?_, BitVec.eq_of_toNat_eq ?_⟩
  · rw [BitVec.extractLsb'_toNat, zext16_toNat, Nat.shiftRight_eq_div_pow]
    change a.toNat / 2 ^ 8 % 2 ^ 8 = 0
    omega
  · rw [BitVec.extractLsb'_toNat, zext16_toNat, Nat.shiftRight_eq_div_pow]
    omega

variable {s : State} {B : List Byte}

/-- With the input `B` complete in `buf` and in `acc`, the byte `ocnt` selects is that byte of the frame. -/
theorem encByte_eq_frame (hacc : s.acc = checksum s.rSeq B) (hi : s.icnt = s.rLen) (hlen : B.length = s.rLen.toNat)
    (hbuf : ∀ k, k < B.length → Memory.read s.buf k = B[k]?) :
    encByte s = (encodeFrame s.rSeq B)[s.ocnt.toNat]? := by
  obtain ⟨h0, h1⟩ := zext16_bytes (checksum s.rSeq B)
  rw [encodeFrame_eq, encByte, encTotal, hacc, ← hlen, h0, h1]
  split
  case h_9 k hk =>
    rw [hk]
    simp only [List.getElem?_cons_succ]
    by_cases hlt : k < B.length
    · simp [bufRead, hi, ← hlen, hlt, hbuf]
    · simp [bufRead, hi, ← hlen, hlt]
  all_goals next hk => rw [hk]; rfl

/-! ### What the one sequence of transfers carries (R48, R225) -/

theorem inBytes_append (ts us : List Transfer) : inBytes (ts ++ us) = inBytes ts ++ inBytes us :=
  List.filterMap_append ..
theorem outWords_append (ts us : List Transfer) : outWords (ts ++ us) = outWords ts ++ outWords us :=
  List.filterMap_append ..
theorem resWords_append (ts us : List Transfer) : resWords (ts ++ us) = resWords ts ++ resWords us :=
  List.filterMap_append ..

/-- The transfers of input bytes only. -/
theorem words_of_inputs (B : List Byte) :
    inBytes (B.map Transfer.inp) = B ∧ outWords (B.map Transfer.inp) = [] ∧ resWords (B.map Transfer.inp) = [] := by
  induction B with
  | nil => exact ⟨rfl, rfl, rfl⟩
  | cons b B ih =>
    obtain ⟨hi, ho, hr⟩ := ih
    exact ⟨congrArg (b :: ·) hi, ho, hr⟩

/-- The transfers of output bytes only. -/
theorem words_of_outputs (os : List (Byte × Bool)) :
    inBytes (os.map (fun o => Transfer.out o.1 o.2)) = [] ∧ outWords (os.map (fun o => Transfer.out o.1 o.2)) = os ∧
    resWords (os.map (fun o => Transfer.out o.1 o.2)) = [] := by
  induction os with
  | nil => exact ⟨rfl, rfl, rfl⟩
  | cons o os ih =>
    obtain ⟨hi, ho, hr⟩ := ih
    exact ⟨hi, congrArg (o :: ·) ho, hr⟩

/-- The transfers of bytes that each go in and come out. -/
theorem words_of_pairs (os : List (Byte × Bool)) :
    inBytes (os.flatMap (fun o => [Transfer.inp o.1, .out o.1 o.2])) = os.map (·.1) ∧
    outWords (os.flatMap (fun o => [Transfer.inp o.1, .out o.1 o.2])) = os ∧
    resWords (os.flatMap (fun o => [Transfer.inp o.1, .out o.1 o.2])) = [] := by
  induction os with
  | nil => exact ⟨rfl, rfl, rfl⟩
  | cons o os ih =>
    obtain ⟨hi, ho, hr⟩ := ih
    exact ⟨congrArg (o.1 :: ·) hi, congrArg (o :: ·) ho, hr⟩

/-- The two shapes of the data transfers: all input before all output, or a header and then each byte in and out. -/
theorem dataTransfers_shape (cfg : Config) (c : Command) (B : List Byte) :
    dataTransfers cfg c B =
      B.map Transfer.inp ++ (markLast (operation cfg c B).1).map (fun o => Transfer.out o.1 o.2) ∨
    ∃ H, B = H ++ (operation cfg c B).1 ∧ dataTransfers cfg c B =
      H.map Transfer.inp ++ (markLast (operation cfg c B).1).flatMap (fun o => [Transfer.inp o.1, .out o.1 o.2]) := by
  obtain ⟨op, seq, k, n⟩ := c
  cases op with
  | csum => exact .inl (List.append_nil _).symm
  | vfy => exact .inl (List.append_nil _).symm
  | enc => exact .inl rfl
  | dec =>
    simp only [dataTransfers, operation, decOp]
    cases hd : decodeFrame B with
    | error e => exact .inl (List.append_nil _).symm
    | ok p =>
      obtain ⟨a, b, c, d, e, f, g, k, rfl, -⟩ := decodeFrame_ok B p hd
      exact .inr ⟨[a, b, c, d, e, f, g, k], rfl, rfl⟩

/-- The `T_CMD` carries none of these words, and the `T_RES` the result. -/
theorem words_between (c : Command) (D : List Transfer) (r : Result) :
    inBytes ([Transfer.cmd c] ++ D ++ [Transfer.res r]) = inBytes D ∧
    outWords ([Transfer.cmd c] ++ D ++ [Transfer.res r]) = outWords D ∧
    resWords ([Transfer.cmd c] ++ D ++ [Transfer.res r]) = resWords D ++ [r] := by
  rw [inBytes_append, inBytes_append, outWords_append, outWords_append, resWords_append, resWords_append]
  exact ⟨List.append_nil _, List.append_nil _, rfl⟩

/-- The transfers of an operation carry its input, its output with the marker, and its result. -/
theorem words_of_operation (cfg : Config) (c : Command) (B : List Byte) :
    inBytes (operationTransfers cfg c B) = B ∧
    outWords (operationTransfers cfg c B) = markLast (operation cfg c B).1 ∧
    resWords (operationTransfers cfg c B) = [(operation cfg c B).2] := by
  obtain ⟨hin, hout, hres⟩ := words_between c (dataTransfers cfg c B) (operation cfg c B).2
  rw [operationTransfers, hin, hout, hres]
  rcases dataTransfers_shape cfg c B with hD | ⟨H, hB, hD⟩
  · obtain ⟨hi, ho, hr⟩ := words_of_inputs B
    obtain ⟨hi', ho', hr'⟩ := words_of_outputs (markLast (operation cfg c B).1)
    rw [hD, inBytes_append, outWords_append, resWords_append, hi, ho, hr, hi', ho', hr']
    simp
  · obtain ⟨hi, ho, hr⟩ := words_of_inputs H
    obtain ⟨hi', ho', hr'⟩ := words_of_pairs (markLast (operation cfg c B).1)
    rw [hD, inBytes_append, outWords_append, resWords_append, hi, ho, hr, hi', ho', hr', markLast_bytes]
    exact ⟨hB.symm, rfl, rfl⟩

/-- The number of transfers of an operation (R225). -/
theorem operationTransfers_length (cfg : Config) (c : Command) (B : List Byte) :
    (operationTransfers cfg c B).length = 1 + B.length + (operation cfg c B).1.length + 1 := by
  have hpairs (os : List (Byte × Bool)) :
      (os.flatMap (fun o => [Transfer.inp o.1, .out o.1 o.2])).length = 2 * os.length := by
    simp [List.length_flatMap, Nat.mul_comm]
  rw [operationTransfers, List.length_append, List.length_append]
  rcases dataTransfers_shape cfg c B with hD | ⟨H, hB, hD⟩
  · rw [hD, List.length_append, List.length_map, List.length_map, markLast_length]
    simp only [List.length_cons, List.length_nil]
    omega
  · have hlen := congrArg List.length hB
    rw [List.length_append] at hlen
    rw [hD, List.length_append, List.length_map, hpairs, markLast_length]
    simp only [List.length_cons, List.length_nil]
    omega

theorem operationTransfers_getLast? (cfg : Config) (c : Command) (B : List Byte) :
    (operationTransfers cfg c B).getLast? = some (.res (operation cfg c B).2) :=
  List.getLast?_concat ..

end Sys2Proof.Machine
end

section
/-! PROOF. The run of an operation whose input is all offered (R48): the engine performs the one sequence of transfers of the
operation, phase by phase. -/

namespace Sys2Proof.Machine

/-! ### Performing a list of transfers -/

/-- The machine makes the transfers `ts`, one at each step, and is then idle with the words `q` and the bytes `rest` still
offered. -/
inductive Performs (q : List Offer) (rest : List Byte) : List Transfer → State → Prop
  | idle {s : State} : s.busy = false → s.cmdQ = q → s.inQ = rest → Performs q rest [] s
  | step {s t : State} {x : Transfer} {ts : List Transfer} : step s = .next t → t.trace = s.trace ++ [x] →
      Performs q rest ts t → Performs q rest (x :: ts) s

/-- An engine in the middle of the operation `c`, after `i` input and `o` output transfers, with `hold` empty and a host that
has offered all it will and accepts everything. -/
structure Midway (cfg : Config) (c : Command) (q : List Offer) (i o : Nat) (inp : List Byte) (s : State) : Prop where
  cfg : s.cfg = cfg
  busy : s.busy = true
  latched : s.latched = c
  icnt : s.icnt.toNat = i
  ocnt : s.ocnt.toNat = o
  free : s.holdFull = false
  cmdQ : s.cmdQ = q
  inQ : s.inQ = inp
  outReady : s.outReady = true
  resReady : s.resReady = true
  rstPlan : s.rstPlan = []

variable {cfg : Config} {c : Command} {q : List Offer} {rest inp : List Byte} {i o : Nat} {d : Byte} {s t : State}
  {ts : List Transfer}

theorem Midway.rOp (h : Midway cfg c q i o inp s) : s.rOp = c.op := congrArg Command.op h.latched
theorem Midway.rSeq (h : Midway cfg c q i o inp s) : s.rSeq = c.seq := congrArg Command.seq h.latched
theorem Midway.rCsum (h : Midway cfg c q i o inp s) : s.rCsum = c.csum := congrArg Command.csum h.latched
theorem Midway.rLen (h : Midway cfg c q i o inp s) : s.rLen = c.len := congrArg Command.len h.latched
theorem Midway.payloadMax (h : Midway cfg c q i o inp s) : s.payloadMax = cfg.payloadMax.val :=
  congrArg (fun g : Config => g.payloadMax.val) h.cfg

/-- With no reset planned a step of a busy engine is a channel step of its command. -/
theorem step_busy_of_nil (hb : s.busy = true) (hp : s.rstPlan = []) :
    step s = channelStep s.latched (inputOf s.rOp) (outputOf s.rOp) (resultOf s.rOp) s := by
  rw [step_busy (rstNow_of_nil hp) hb, State.elapse_rstPlan_nil s hp]

/-- A `T_OUT` that the host accepts. -/
theorem step_output (hb : s.busy = true) (hp : s.rstPlan = []) (hin : enIn s = false) (hout : enOut s = true)
    (hr : s.outReady = true) : step s = outputOf s.rOp s := by
  rw [step_busy_of_nil hb hp, channelStep_out hb rfl hin hout hr]

/-- The next byte offered is consumed. -/
theorem Midway.step_input (h : Midway cfg c q i o (d :: inp) s) (hi : i < c.len.toNat) :
    step s = .next ((inputOf c.op s d).consume d inp) := by
  have hin : enIn s = true := enIn_of_lt h.busy (by rw [h.icnt, h.rLen]; exact hi) h.free
  rw [step_busy_of_nil h.busy h.rstPlan, channelStep_in h.busy rfl hin d inp h.inQ, h.rOp]

/-- Consuming a byte that does not fill `hold`. -/
theorem Midway.consume (h : Midway cfg c q i o (d :: inp) s) (hi : i < c.len.toNat)
    (hf : (inputOf c.op s d).holdFull = false) : Midway cfg c q (i + 1) o inp ((inputOf c.op s d).consume d inp) where
  cfg := by simp [h.cfg]
  busy := by simp [h.busy]
  latched := by simp [h.latched]
  icnt := by
    have hn : (s.icnt + 1).toNat = s.icnt.toNat + 1 := Half.succ_toNat_of_lt (n := c.len) (by rw [h.icnt]; exact hi)
    rw [State.consume_icnt, inputOf_icnt, hn, h.icnt]
  ocnt := by simp [h.ocnt]
  free := by simp [hf]
  cmdQ := by simp [h.cmdQ]
  inQ := rfl
  outReady := by simp [h.outReady]
  resReady := by simp [h.resReady]
  rstPlan := by simp [h.rstPlan]

/-- The result is delivered when the input is complete and no frame byte of an accepted ENC is left. -/
theorem Midway.performs_result (h : Midway cfg c q c.len.toNat o inp s)
    (ho : encOk s = true → o = 8 + c.len.toNat) : Performs q inp [.res (resultOf c.op s)] s := by
  have hi : s.icnt = s.rLen := BitVec.eq_of_toNat_eq (by rw [h.icnt, h.rLen])
  have hres : enRes s = true := (enRes_iff s).mpr ⟨h.busy, hi, h.free, fun he => by rw [h.ocnt, h.rLen]; exact ho he⟩
  have hout : enOut s = false := by
    rcases enabled_of_complete h.busy hi h.free (fun he => by rw [h.ocnt, h.rLen, ho he]) with ⟨-, hr⟩ | ⟨hout, -⟩
    · exact absurd (hr.symm.trans hres) (by simp)
    · exact hout
  have hstep : Machine.step s = .next (s.deliver (resultOf c.op s)) := by
    rw [step_busy_of_nil h.busy h.rstPlan,
      channelStep_res h.busy rfl (enIn_eq_false_of_icnt hi) hout hres h.resReady, h.rOp]
  exact .step hstep rfl (.idle rfl h.cmdQ h.inQ)

/-- A phase of input transfers: what each keeps of the bytes consumed so far and of the state holds of all of them at the
end of the phase. -/
theorem performs_inputs {fin : List Byte} (I : List Byte → State → Prop) (i stop : Nat) (hstop : stop ≤ c.len.toNat)
    (keeps : ∀ cs d inp s, Midway cfg c q (i + cs.length) o (d :: inp) s → i + cs.length < stop → I cs s →
      (inputOf c.op s d).holdFull = false ∧ I (cs ++ [d]) ((inputOf c.op s d).consume d inp))
    (P cs : List Byte) (s : State) (h : Midway cfg c q (i + cs.length) o (P ++ rest) s) (hI : I cs s)
    (hlen : i + cs.length + P.length ≤ stop)
    (next : ∀ t, Midway cfg c q (i + cs.length + P.length) o rest t → I (cs ++ P) t → Performs q fin ts t) :
    Performs q fin (P.map .inp ++ ts) s := by
  induction P generalizing cs s with
  | nil => exact next s h (by simpa using hI)
  | cons d P ih =>
    simp only [List.length_cons] at hlen next
    obtain ⟨hf, hI'⟩ := keeps cs d (P ++ rest) s h (by omega) hI
    have hlt : i + cs.length < c.len.toNat := by omega
    have hcs : i + (cs ++ [d]).length = i + cs.length + 1 := by simp [Nat.add_assoc]
    refine .step (h.step_input hlt) (by simp) (ih (cs ++ [d]) _ ?_ hI' (by omega) fun t ht htI => next t ?_ ?_)
    · exact hcs ▸ h.consume hlt hf
    · rwa [hcs, Nat.add_assoc, Nat.add_comm 1] at ht
    · simpa using htI

end Sys2Proof.Machine
end

section
/-! PROOF. The phases of each operation: what the registers hold after its input, and the output and the result that follow
from it (R117, R133, R157). -/

namespace Sys2Proof.Machine

variable {cfg : Config} {c : Command} {q : List Offer} {rest B P : List Byte} {i o : Nat} {s t : State}
  {ts : List Transfer}

/-- The length of the input, as the command states it. -/
theorem ofNat_length (hB : B.length = c.len.toNat) : BitVec.ofNat 16 B.length = c.len := by
  rw [hB, BitVec.ofNat_toNat, BitVec.setWidth_eq]

/-! ### CSUM and VFY (R117 to R119) -/

/-- CSUM and VFY sum their input and answer the checksum. -/
theorem Midway.performs_sum (h : Midway cfg c q 0 0 (B ++ rest) s) (hop : c.op = .csum ∨ c.op = .vfy)
    (hacc : s.acc = seqsum c.seq) (hB : B.length = c.len.toNat) :
    Performs q rest (B.map Transfer.inp ++ [Transfer.res (operation cfg c B).2]) s := by
  refine performs_inputs (o := 0) (fun cs s => s.acc = cs.foldl accAdd (seqsum c.seq)) 0 c.len.toNat le_rfl ?_ B [] s h
    hacc (by simp [hB]) fun t ht hsum => ?_
  · intro cs d inp u hu _ hsum
    have hin : inputOf c.op u d = u.addAcc d := by rcases hop with hop | hop <;> rw [hop] <;> rfl
    rw [hin]
    exact ⟨hu.free, by simp [hsum]⟩
  · have hlen : 0 + ([] : List Byte).length + B.length = c.len.toNat := by simp [hB]
    rw [hlen] at ht
    have hnot : encOk t ≠ true := fun he => by
      have := ((encOk_iff t).mp he).1
      rcases hop with hop | hop <;> simp [ht.rOp, hop] at this
    rw [List.nil_append, foldl_accAdd_seqsum] at hsum
    have hres : (operation cfg c B).2 = resultOf c.op t := by
      have hn := ofNat_length hB
      rcases hop with hop | hop
      · simp [operation, hop, resultOf, csumOp, csumRes, hn, hsum, ht.rSeq, ht.rLen]
      · simp [operation, hop, resultOf, vfyOp, vfyRes, vfyOk, verify, hn, hsum, ht.rSeq, ht.rLen, ht.rCsum,
          BEq.comm (a := c.csum)]
    rw [hres]
    exact ht.performs_result fun he => absurd he hnot

/-! ### A refused or failing operation drains its input (R134, R158) -/

/-- The registers say that the operation fails with `e` and drains what input is left. -/
def Drains : OpError → State → Bool
  | .payload => encRef
  | .short => decShort
  | .length => decMis

variable {e : OpError}

theorem Drains.input (h : Drains e s = true) (d : Byte) : inputOf s.rOp s d = s := by
  cases e with
  | payload =>
    obtain ⟨hop, hlen⟩ := (encRef_iff s).mp h
    rw [hop]
    exact encIn_refused s d (by simp [encOk, hlen])
  | short =>
    obtain ⟨hop, hlen⟩ := (decShort_iff s).mp h
    rw [hop]
    exact decIn_short s d hlen
  | length =>
    obtain ⟨hop, hlen, hi, hd⟩ := (decMis_iff s).mp h
    rw [hop]
    exact decIn_mismatch s d hlen hi hd

theorem Drains.consume (h : Drains e s = true) (hi : s.icnt.toNat < s.rLen.toNat) (d : Byte) (rest : List Byte) :
    Drains e (s.consume d rest) = true := by
  cases e with
  | payload => exact h
  | short => exact h
  | length =>
    obtain ⟨hop, hlen, h8, hd⟩ := (decMis_iff s).mp h
    exact (decMis_iff _).mpr ⟨hop, hlen, h8.trans (Half.succ_toNat_of_lt hi ▸ Nat.le_succ _), hd⟩

theorem Drains.result (h : Drains e s = true) : resultOf s.rOp s = raiseError s.rOp e := by
  cases e with
  | payload =>
    obtain ⟨hop, hlen⟩ := (encRef_iff s).mp h
    rw [hop]
    exact encRes_refused s (by simp [encOk, hlen])
  | short =>
    obtain ⟨hop, hlen⟩ := (decShort_iff s).mp h
    rw [hop]
    exact decRes_short s hlen
  | length =>
    obtain ⟨hop, hlen, -, hd⟩ := (decMis_iff s).mp h
    rw [hop]
    exact decRes_length s hlen hd

theorem Drains.encOk_eq_false (h : Drains e s = true) : encOk s = false := by
  cases e with
  | payload => simp [encOk, ((encRef_iff s).mp h).2]
  | short => simp [encOk, ((decShort_iff s).mp h).1]
  | length => simp [encOk, ((decMis_iff s).mp h).1]

/-- A failing operation consumes what input is left and answers its error. -/
theorem Midway.performs_drain (h : Midway cfg c q i o (P ++ rest) s) (hd : Drains e s = true)
    (hlen : i + P.length = c.len.toNat) :
    Performs q rest (P.map Transfer.inp ++ [Transfer.res (raiseError c.op e)]) s := by
  refine performs_inputs (o := o) (fun _ s => Drains e s = true) i c.len.toNat le_rfl ?_ P [] s h hd (by simp [hlen])
    fun t ht htd => ?_
  · intro cs d inp u hu hlt hud
    have hin : inputOf c.op u d = u := hu.rOp ▸ Drains.input hud d
    rw [hin]
    exact ⟨hu.free, Drains.consume hud (by rw [hu.icnt, hu.rLen]; exact hlt) d inp⟩
  · have hi : i + ([] : List Byte).length + P.length = c.len.toNat := by simp [hlen]
    rw [hi] at ht
    have hres : resultOf c.op t = raiseError c.op e := ht.rOp ▸ Drains.result htd
    rw [← hres]
    exact ht.performs_result fun he => absurd ((Drains.encOk_eq_false htd).symm.trans he) (by simp)

/-! ### An accepted ENC: all input, then the frame (R133 to R136) -/

/-- An accepted ENC buffers and sums its input. -/
def Buffers (seq : Seq) (cs : List Byte) (s : State) : Prop :=
  s.acc = cs.foldl accAdd (seqsum seq) ∧ ∀ k, k < cs.length → Memory.read s.buf k = cs[k]?

/-- Writing the next byte at its place extends what is buffered. -/
theorem Buffers.snoc {seq : Seq} {cs : List Byte} (h : Buffers seq cs s) (hi : s.icnt.toNat = cs.length) (d : Byte)
    (rest : List Byte) : Buffers seq (cs ++ [d]) (((s.writeBuf d).addAcc d).consume d rest) := by
  obtain ⟨hacc, hbuf⟩ := h
  refine ⟨by simp [hacc], fun k hk => ?_⟩
  simp only [State.consume_buf, State.addAcc_buf, State.writeBuf_buf, hi]
  simp only [List.length_append, List.length_singleton] at hk
  by_cases hkl : k = cs.length
  · rw [hkl, Memory.read_write_same, List.getElem?_concat_length]
  · rw [Memory.read_write_other _ _ _ _ hkl, List.getElem?_append_left (by omega)]
    exact hbuf k (by omega)

/-- An accepted ENC with its input complete emits the frame and answers its result. -/
theorem Midway.performs_frame (hop : c.op = .enc) (hmax : c.len.toNat ≤ cfg.payloadMax.val)
    (hB : B.length = c.len.toNat) (bs : List Byte) (o : Nat) (s : State)
    (h : Midway cfg c q c.len.toNat o rest s) (hbuf : Buffers c.seq B s) (hbs : (encodeFrame c.seq B).drop o = bs)
    (hlen : o + bs.length = 8 + c.len.toNat) :
    Performs q rest ((markLast bs).map (fun w => Transfer.out w.1 w.2) ++
      [Transfer.res (okResult .enc c.seq (zext16 (checksum c.seq B)) (BitVec.ofNat 16 (8 + B.length)) true)]) s := by
  have hi : s.icnt = s.rLen := BitVec.eq_of_toNat_eq (by rw [h.icnt, h.rLen])
  have he : encOk s = true := (encOk_iff s).mpr ⟨h.rOp.trans hop, by rw [h.rLen, h.payloadMax]; exact hmax⟩
  have hacc : s.acc = checksum s.rSeq B := by rw [hbuf.1, h.rSeq, foldl_accAdd_seqsum]
  induction bs generalizing o s with
  | nil =>
    have hres : resultOf c.op s =
        okResult .enc c.seq (zext16 (checksum c.seq B)) (BitVec.ofNat 16 (8 + B.length)) true := by
      rw [hop]
      exact (encRes_accepted s he).trans (by rw [encTotal, hacc, h.rSeq, h.rLen, hB])
    rw [← hres]
    exact h.performs_result fun _ => hlen
  | cons b bs ih =>
    simp only [List.length_cons] at hlen
    have hbyte : encByte s = some b := by
      rw [encByte_eq_frame hacc hi (by rw [hB, h.rLen]) hbuf.2, h.ocnt, h.rSeq, ← List.head?_drop, hbs]
      rfl
    have ho : s.ocnt.toNat < 8 + s.rLen.toNat := by rw [h.ocnt, h.rLen]; omega
    have hlast : encLast s = bs.isEmpty := by
      rw [Bool.eq_iff_iff, List.isEmpty_iff_length_eq_zero, encLast, decide_eq_true_iff, h.ocnt, h.rLen]
      omega
    have hstep : step s = .next (s.emit b (encLast s)) := by
      rw [step_output h.busy h.rstPlan (enIn_eq_false_of_icnt hi) ((enOut_iff s).mpr ⟨h.busy, .inl ⟨he, hi, ho⟩⟩)
        h.outReady, h.rOp, hop]
      exact encOut_eq_next he hi ho hbyte
    rw [markLast_cons, List.map_cons, List.cons_append]
    refine .step hstep (by rw [State.emit_trace, hlast]) (ih (o + 1) _ ?_ hbuf ?_ (by omega) hi he hacc)
    · have hn : (s.ocnt + 1).toNat = s.ocnt.toNat + 1 :=
        Half.succ_toNat (by have := cfg.payloadMax.isLt; rw [h.rLen] at ho; omega)
      exact { h with ocnt := hn.trans (by rw [h.ocnt]) }
    · rw [← List.drop_drop, hbs]; rfl

/-- An accepted ENC consumes its input, then emits the frame. -/
theorem Midway.performs_enc (h : Midway cfg c q 0 0 (B ++ rest) s) (hop : c.op = .enc)
    (hmax : c.len.toNat ≤ cfg.payloadMax.val) (hacc : s.acc = seqsum c.seq) (hB : B.length = c.len.toNat) :
    Performs q rest (B.map Transfer.inp ++ ((markLast (encodeFrame c.seq B)).map (fun w => Transfer.out w.1 w.2) ++
      [Transfer.res (okResult .enc c.seq (zext16 (checksum c.seq B)) (BitVec.ofNat 16 (8 + B.length)) true)])) s := by
  refine performs_inputs (o := 0) (Buffers c.seq) 0 c.len.toNat le_rfl ?_ B [] s h ⟨hacc, by simp⟩ (by simp [hB])
    fun t ht htb => ?_
  · intro cs d inp u hu _ hub
    have he : encOk u = true := (encOk_iff u).mpr ⟨hu.rOp.trans hop, by rw [hu.rLen, hu.payloadMax]; exact hmax⟩
    have hin : inputOf c.op u d = (u.writeBuf d).addAcc d := by rw [hop]; exact encIn_accepted u d he
    rw [hin]
    exact ⟨hu.free, hub.snoc (by simp [hu.icnt]) d inp⟩
  · have hi : 0 + ([] : List Byte).length + B.length = c.len.toNat := by simp [hB]
    rw [hi] at ht
    exact ht.performs_frame hop hmax hB _ 0 t htb rfl (by simp [hB])

end Sys2Proof.Machine
end

section
/-! PROOF. The phases of a DEC (R157 to R160): the header, then the payload byte by byte. -/

namespace Sys2Proof.Machine

variable {cfg : Config} {c : Command} {q : List Offer} {rest inp B P : List Byte} {i o : Nat} {d : Byte} {s t : State}
  {ts : List Transfer}

/-! ### The header -/

/-- DEC has put the header bytes `cs` in their places and summed those of the sequence number (R35, R158). -/
def HoldsHeader (cs : List Byte) (s : State) : Prop :=
  (∀ k, (hk : k < 8) → (h : k < cs.length) → s.hdr[k] = cs[k]) ∧ s.acc = (cs.drop 4).foldl accAdd 0

theorem HoldsHeader.snoc {cs : List Byte} (h : HoldsHeader cs s) (hlen : 8 ≤ s.rLen.toNat) (hi : s.icnt.toNat = cs.length)
    (h8 : cs.length < 8) (d : Byte) (rest : List Byte) : HoldsHeader (cs ++ [d]) ((decIn s d).consume d rest) := by
  obtain ⟨hhdr, hacc⟩ := h
  have hwritten : ∀ k, (hk : k < 8) → (h : k < (cs ++ [d]).length) →
      (s.hdr.setIfInBounds s.icnt.toNat d)[k] = (cs ++ [d])[k] := by
    intro k hk hkl
    rw [Vector.getElem_setIfInBounds, hi, List.getElem_append]
    simp only [List.length_append, List.length_singleton] at hkl
    by_cases hkc : cs.length = k
    · simp [hkc]
    · have : k < cs.length := by omega
      simp [hkc, this, hhdr k hk this]
  by_cases h4 : cs.length < 4
  · rw [decIn_header_low s d hlen (by omega)]
    refine ⟨hwritten, ?_⟩
    rw [List.drop_eq_nil_of_le (by simp; omega)]
    rw [List.drop_eq_nil_of_le (by omega)] at hacc
    exact hacc
  · rw [decIn_header_high s d hlen (by omega) (by omega)]
    refine ⟨hwritten, ?_⟩
    rw [List.drop_append_of_le_length (by omega), List.foldl_append, ← hacc]
    rfl

/-- DEC reads the header of a frame that has one; what follows depends on the header alone. -/
theorem Midway.performs_header {fin H : List Byte} (h : Midway cfg c q 0 0 (H ++ rest) s) (hop : c.op = .dec)
    (h8 : H.length = 8) (hlen : 8 ≤ c.len.toNat) (hacc : s.acc = 0)
    (next : ∀ t, Midway cfg c q 8 0 rest t → HoldsHeader H t → Performs q fin ts t) :
    Performs q fin (H.map Transfer.inp ++ ts) s := by
  refine performs_inputs (o := 0) HoldsHeader 0 8 hlen ?_ H [] s h ⟨by simp, hacc⟩ (by simp [h8]) fun t ht hth => ?_
  · intro cs d inp u hu hlt huh
    rw [hop]
    have hi : u.icnt.toNat = cs.length := by simp [hu.icnt]
    have hul : 8 ≤ u.rLen.toNat := hu.rLen ▸ hlen
    refine ⟨?_, huh.snoc hul hi (by omega) d inp⟩
    obtain ⟨a, ha⟩ := decIn_header u d hul (by omega)
    exact (congrArg State.holdFull ha).trans hu.free
  · have hi : 0 + ([] : List Byte).length + H.length = 8 := by simp [h8]
    exact next t (hi ▸ ht) hth

/-- The fields of the header DEC has read, and the running sum after it. -/
theorem HoldsHeader.fields {a b x y e f g k : Byte} (h : HoldsHeader [a, b, x, y, e, f, g, k] s) :
    hdrCsum s = be16 a b ∧ declared s = be16 x y ∧ hdrSeq s = be32 e f g k ∧ s.acc = seqsum (be32 e f g k) := by
  obtain ⟨hhdr, hacc⟩ := h
  refine ⟨?_, ?_, ?_, hacc.trans (foldl_accAdd_be32 e f g k)⟩
  · exact congrArg₂ be16 (hhdr 0 (by decide) (by simp)) (hhdr 1 (by decide) (by simp))
  · exact congrArg₂ be16 (hhdr 2 (by decide) (by simp)) (hhdr 3 (by decide) (by simp))
  · rw [hdrSeq, hhdr 4 (by decide) (by simp), hhdr 5 (by decide) (by simp), hhdr 6 (by decide) (by simp),
      hhdr 7 (by decide) (by simp)]
    rfl

/-! ### The payload -/

/-- The state after a payload byte of a matching frame went in (R158). -/
def State.holding (s : State) (d : Byte) (rest : List Byte) : State :=
  { s with
    acc := accAdd s.acc d, icnt := s.icnt + 1, hold := d, holdFull := true, inQ := rest
    trace := s.trace ++ [.inp d] }

theorem State.holding_eq (s : State) (d : Byte) (rest : List Byte) :
    ((s.fillHold d).addAcc d).consume d rest = s.holding d rest := by rfl

/-- The state after it came out again (R159). -/
def State.pass (s : State) (d : Byte) (rest : List Byte) (last : Bool) : State :=
  { s with
    acc := accAdd s.acc d, icnt := s.icnt + 1, ocnt := s.ocnt + 1, hold := d, holdFull := false, inQ := rest
    trace := s.trace ++ [.inp d] ++ [.out d last] }

theorem State.holding_emit (s : State) (d : Byte) (rest : List Byte) (last : Bool) :
    (s.holding d rest).emptyHold.emit (s.holding d rest).hold last = s.pass d rest last := by rfl

theorem decPass_holding (h : decPass s = true) (hi : s.icnt.toNat < s.rLen.toNat) (d : Byte) (rest : List Byte) :
    decPass (s.holding d rest) = true := by
  obtain ⟨hop, hlen, h8, hd⟩ := (decPass_iff s).mp h
  exact (decPass_iff _).mpr ⟨hop, hlen, h8.trans (Half.succ_toNat_of_lt hi ▸ Nat.le_succ _), hd⟩

theorem Midway.pass (h : Midway cfg c q i o (d :: inp) s) (hi : i < c.len.toNat) (hio : i = o + 8) (last : Bool) :
    Midway cfg c q (i + 1) (o + 1) inp (s.pass d inp last) := by
  have hn : (s.icnt + 1).toNat = i + 1 := (Half.succ_toNat_of_lt (n := c.len) (h.icnt ▸ hi)).trans (by rw [h.icnt])
  have hon : (s.ocnt + 1).toNat = o + 1 :=
    (Half.succ_toNat (by have := c.len.isLt; rw [h.ocnt]; omega)).trans (by rw [h.ocnt])
  exact ⟨h.cfg, h.busy, h.latched, hn, hon, rfl, h.cmdQ, rfl, h.outReady, h.resReady, h.rstPlan⟩

/-- The payload byte held is the last one when it completes the input (R159). -/
theorem Midway.decLast_holding (h : Midway cfg c q i o (d :: inp) s) (hio : i = o + 8) :
    decLast (s.holding d inp) = decide (i + 1 = c.len.toNat) := by
  rw [decLast, decide_eq_decide]
  change s.ocnt.toNat + 9 = s.rLen.toNat ↔ _
  rw [h.ocnt, h.rLen, hio]

/-- A payload byte of a matching frame goes into `hold` and from there to the host (R39(e)). -/
theorem Midway.performs_pair {fin : List Byte} (h : Midway cfg c q i o (d :: inp) s) (hp : decPass s = true)
    (hi : i < c.len.toNat) (hio : i = o + 8) (next : Performs q fin ts (s.pass d inp (decide (i + 1 = c.len.toNat)))) :
    Performs q fin (Transfer.inp d :: Transfer.out d (decide (i + 1 = c.len.toNat)) :: ts) s := by
  obtain ⟨hop, hlen, h8, hd⟩ := (decPass_iff s).mp hp
  have hin : step s = .next (s.holding d inp) := by
    rw [h.step_input hi, ← h.rOp, hop]
    simp only [inputOf]
    rw [decIn_payload s d hlen h8 hd, State.holding_eq]
  have hp' : decPass (s.holding d inp) = true := decPass_holding hp (by rw [h.icnt, h.rLen]; exact hi) d inp
  obtain ⟨hoff, hon, -⟩ := enabled_of_holdFull (s := s.holding d inp) h.busy hp' rfl
  have hout : step (s.holding d inp) = .next (s.pass d inp (decide (i + 1 = c.len.toNat))) := by
    have hop' : (s.holding d inp).rOp = .dec := hop
    rw [step_output (s := s.holding d inp) h.busy h.rstPlan hoff hon h.outReady, hop',
      ← h.decLast_holding hio, ← State.holding_emit]
    rfl
  exact .step hin rfl (.step hout rfl next)

/-- A DEC of a matching frame passes its payload on and answers the header's fields with the verdict. -/
theorem Midway.performs_payload (P : List Byte) (i o : Nat) (s : State) (h : Midway cfg c q i o (P ++ rest) s)
    (hp : decPass s = true) (hio : i = o + 8) (hlen : i + P.length = c.len.toNat) :
    Performs q rest ((markLast P).flatMap (fun w => [Transfer.inp w.1, Transfer.out w.1 w.2]) ++
      [Transfer.res (okResult .dec (hdrSeq s) (hdrCsum s) (declared s)
        (hdrCsum s == zext16 (P.foldl accAdd s.acc)))]) s := by
  obtain ⟨hop, h8, -, hd⟩ := (decPass_iff s).mp hp
  induction P generalizing i o s with
  | nil =>
    have hres : resultOf c.op s = okResult .dec (hdrSeq s) (hdrCsum s) (declared s) (hdrCsum s == zext16 s.acc) := by
      rw [← h.rOp, hop]
      exact decRes_ok s h8 hd
    have hi : i = c.len.toNat := hlen
    subst hi
    rw [List.foldl_nil, ← hres]
    exact h.performs_result fun he => absurd ((encOk_iff s).mp he).1 (by simp [hop])
  | cons d P ih =>
    simp only [List.length_cons] at hlen
    have hlast : P.isEmpty = decide (i + 1 = c.len.toNat) := by
      rw [Bool.eq_iff_iff, List.isEmpty_iff_length_eq_zero, decide_eq_true_iff]
      omega
    rw [markLast_cons, List.flatMap_cons, hlast]
    have hi : i < c.len.toNat := by omega
    refine h.performs_pair hp hi hio (ih (i + 1) (o + 1) _ (h.pass hi hio _) ?_ (by omega) (by omega) hop h8 hd)
    exact decPass_holding hp (by rw [h.icnt, h.rLen]; exact hi) d (P ++ rest)

/-! ### DEC -/

/-- Every DEC performs its transfers, from the state after its `T_CMD`. -/
theorem Midway.performs_dec (h : Midway cfg c q 0 0 (B ++ rest) s) (hop : c.op = .dec) (hacc : s.acc = 0)
    (hB : B.length = c.len.toNat) :
    Performs q rest (dataTransfers cfg c B ++ [Transfer.res (operation cfg c B).2]) s := by
  simp only [dataTransfers, operation, hop, decOp]
  by_cases hshort : B.length < 8
  · rw [decodeFrame_short B hshort]
    have hd : Drains .short s = true := (decShort_iff s).mpr ⟨h.rOp.trans hop, by rw [h.rLen, ← hB]; exact hshort⟩
    exact hop ▸ h.performs_drain hd (by simp [hB])
  · obtain ⟨a, b, x, y, e, f, g, k, P, rfl⟩ := exists_header_of_le_length B (Nat.not_lt.mp hshort)
    have hlen : 8 + P.length = c.len.toNat := by rw [← hB]; simp only [List.length_cons]; omega
    rw [decodeFrame_cons]
    have hheader {ts : List Transfer} := performs_header (fin := rest) (ts := ts) (rest := P ++ rest)
      (H := [a, b, x, y, e, f, g, k]) h hop rfl (by omega) hacc
    by_cases hmatch : x.toNat * 256 + y.toNat = 8 + P.length
    · rw [if_pos hmatch]
      simp only [List.append_assoc]
      refine hheader fun t ht hth => ?_
      obtain ⟨hcsum, hdecl, hseq, hsum⟩ := hth.fields
      have hp : decPass t = true := (decPass_iff t).mpr ⟨ht.rOp.trans hop, by rw [ht.rLen]; omega, ht.icnt.ge, by
        rw [hdecl, ht.rLen]; exact BitVec.eq_of_toNat_eq (by rw [be16_toNat]; omega)⟩
      have := ht.performs_payload P 8 0 t hp rfl hlen
      rw [hcsum, hdecl, hseq, hsum, foldl_accAdd_seqsum] at this
      exact this
    · rw [if_neg hmatch]
      change Performs q rest (([a, b, x, y, e, f, g, k].map Transfer.inp ++ P.map Transfer.inp) ++
        [Transfer.res (raiseError .dec .length)]) s
      rw [List.append_assoc]
      refine hheader fun t ht hth => ?_
      obtain ⟨-, hdecl, -⟩ := hth.fields
      have hd : Drains .length t = true := (decMis_iff t).mpr ⟨ht.rOp.trans hop, by rw [ht.rLen]; omega, ht.icnt.ge, by
        rw [hdecl, ht.rLen]; exact fun hx => hmatch (by rw [← be16_toNat, hx]; exact hlen.symm)⟩
      exact hop ▸ ht.performs_drain hd hlen

end Sys2Proof.Machine
end

section
/-! PROOF. The two levels (R40, R48): the run with all input offered in advance, and from it the run under every order of host
moves and steps. -/

namespace Sys2Proof.Machine

variable {c : Command} {q : List Offer} {rest B : List Byte} {s t : State} {ts : List Transfer}

/-! ### The run with all input offered in advance (R48) -/

/-- Between its `T_CMD` and its idle state an operation performs its data transfers and its result. -/
theorem Midway.performs_data {cfg : Config} (h : Midway cfg c q 0 0 (B ++ rest) s) (hacc : s.acc = initialAcc c)
    (hB : B.length = c.len.toNat) : Performs q rest (dataTransfers cfg c B ++ [.res (operation cfg c B).2]) s := by
  cases hop : c.op with
  | dec => exact h.performs_dec hop (by simpa [initialAcc, hop] using hacc) hB
  | csum => simpa [dataTransfers, hop] using h.performs_sum (.inl hop) (by simpa [initialAcc, hop] using hacc) hB
  | vfy => simpa [dataTransfers, hop] using h.performs_sum (.inr hop) (by simpa [initialAcc, hop] using hacc) hB
  | enc =>
    simp only [dataTransfers, operation, hop, encOp]
    by_cases hmax : cfg.payloadMax.val < B.length
    · rw [if_pos hmax]
      have hd : Drains .payload s = true :=
        (encRef_iff s).mpr ⟨h.rOp.trans hop, by rw [h.payloadMax, h.rLen, ← hB]; exact hmax⟩
      simpa [markLast, hop] using h.performs_drain hd (by simp [hB])
    · rw [if_neg hmax, List.append_assoc]
      exact h.performs_enc hop (hB ▸ Nat.not_lt.mp hmax) (by simpa [initialAcc, hop] using hacc) hB

/-- An idle engine with the command and its input offered performs the transfers of the operation. -/
theorem performs_operation (hb : s.busy = false) (hq : s.cmdQ = .command (encodeCommand c) :: q)
    (hin : s.inQ = B ++ rest) (hB : B.length = c.len.toNat) (hout : s.outReady = true) (hres : s.resReady = true)
    (hp : s.rstPlan = []) : Performs q rest (operationTransfers s.cfg c B) s := by
  have hstep : step s = .next ({ s with cmdQ := q }.accept c) := by
    rw [step_idle_cons (rstNow_of_nil hp) hb _ q hq, State.elapse_rstPlan_nil s hp, decodeOffer,
      decodeCommand_encodeCommand, exec_toInstr, channelStep_idle (by exact hb)]
  have hmid : Midway s.cfg c q 0 0 (B ++ rest) ({ s with cmdQ := q }.accept c) :=
    ⟨rfl, rfl, rfl, rfl, rfl, rfl, rfl, hin, hout, hres, hp⟩
  rw [operationTransfers, List.append_assoc]
  exact .step hstep rfl (hmid.performs_data rfl hB)

/-- What no step changes: the parameter, the host's readiness and, with no reset planned, that none is and that nothing
is to be taken back. -/
structure Steady (s t : State) : Prop where
  cfg : t.cfg = s.cfg
  outReady : t.outReady = s.outReady
  resReady : t.resReady = s.resReady
  rstPlan : s.rstPlan = [] → t.rstPlan = []
  inLeft : s.rstPlan = [] → s.inLeft = 0 → t.inLeft = 0

theorem Steady.trans {u : State} (h : Steady s t) (h' : Steady t u) : Steady s u :=
  ⟨h'.cfg.trans h.cfg, h'.outReady.trans h.outReady, h'.resReady.trans h.resReady, fun hp => h'.rstPlan (h.rstPlan hp),
    fun hp hl => h'.inLeft (h.rstPlan hp) (h.inLeft hp hl)⟩

theorem steady_elapse (s : State) : Steady s s.elapse :=
  ⟨by simp, by simp, by simp, fun hp => by simp [hp], by simp⟩

theorem step_steady (h : step s = .next t) : Steady s t := by
  rcases step_cases h with ⟨hr, rfl⟩ | ⟨-, -, w, r, -, rfl⟩ | ⟨-, -, hc⟩
  · exact ⟨rfl, rfl, rfl, fun hp => by simp [hp], fun hp => by simp [rstNow_of_nil hp] at hr⟩
  · exact (steady_elapse s).trans ⟨rfl, rfl, rfl, id, fun _ _ => rfl⟩
  · refine (steady_elapse s).trans ?_
    rcases channelStep_cases hc with
      ⟨-, rfl⟩ | ⟨-, -, -, d, r, -, rfl⟩ | ⟨-, -, -, -, -, ho⟩ | ⟨-, -, -, -, -, -, rfl⟩
    · exact ⟨rfl, rfl, rfl, id, fun _ _ => rfl⟩
    · exact ⟨by simp, by simp, by simp, by simp, by simp⟩
    · rcases outputOf_cases ho with ⟨-, -, -, -, b, -, rfl⟩ | ⟨-, rfl⟩
      · exact ⟨rfl, rfl, rfl, id, fun _ => id⟩
      · exact ⟨rfl, rfl, rfl, id, fun _ => id⟩
    · exact ⟨rfl, rfl, rfl, id, fun _ => id⟩

/-- The run of a performance: as many steps as transfers, ending idle. -/
theorem Performs.run (h : Performs q rest ts s) :
    ∃ t, runEvents (List.replicate ts.length .step) s = .next t ∧ t.trace = s.trace ++ ts ∧
      Performs q rest [] t ∧ Steady s t := by
  induction h with
  | idle hb hq hin => exact ⟨_, rfl, by simp, .idle hb hq hin, ⟨rfl, rfl, rfl, id, fun _ => id⟩⟩
  | step hstep htrace _ ih =>
    obtain ⟨u, hrun, hutrace, hend, hsteady⟩ := ih
    refine ⟨u, ?_, by simp [hutrace, htrace], hend, (step_steady hstep).trans hsteady⟩
    rw [List.length_cons, List.replicate_succ, runEvents_step _ _ _ hstep, hrun]

/-- A run of the machine is an open run with no host moves. -/
theorem core_run_eq_runEvents (k : Nat) (s : State) :
    Host.Core.run core k s = runEvents (List.replicate k .step) s := by
  induction k generalizing s with
  | zero => rfl
  | succ k ih =>
    rw [List.replicate_succ, runEvents]
    cases h : step s with
    | next t =>
      simp only [Host.Core.run, show core.step s = .next t from h]
      exact ih t
    | fault f =>
      simp only [Host.Core.run, show core.step s = .fault f from h]
      rfl
    | refused r =>
      simp only [Host.Core.run, show core.step s = .refused r from h]
      rfl

/-- An ended performance. -/
theorem performs_nil_iff : Performs q rest [] s ↔ s.busy = false ∧ s.cmdQ = q ∧ s.inQ = rest :=
  ⟨fun | .idle hb hq hin => ⟨hb, hq, hin⟩, fun ⟨hb, hq, hin⟩ => .idle hb hq hin⟩

/-- Settles O56: the performance of the operation, run to its end. -/
theorem oneRunPerOperation : Obligations.OneRunPerOperation := by
  intro c B rest q s hb hq hin hB hout hres hp
  obtain ⟨t, hrun, htrace, hend, hsteady⟩ := (performs_operation hb hq hin hB hout hres hp).run
  obtain ⟨htb, htq, htin⟩ := performs_nil_iff.mp hend
  rw [operationTransfers_length, ← core_run_eq_runEvents] at hrun
  exact ⟨t, hrun, htrace, htb, htq, htin, hsteady.cfg, hsteady.outReady.trans hout, hsteady.resReady.trans hres,
    hsteady.rstPlan hp⟩

/-! ### A host that offers more (R224) -/

/-- `s` with the further words `ws` and bytes `bs` offered and a host that accepts everything. -/
def State.served (s : State) (ws : List Offer) (bs : List Byte) : State :=
  { s with cmdQ := s.cmdQ ++ ws, inQ := s.inQ ++ bs, outReady := true, resReady := true }

variable {op : Op} {ws : List Offer} {bs : List Byte}

theorem inputOf_served (d : Byte) : inputOf op (s.served ws bs) d = (inputOf op s d).served ws bs := by
  cases op with
  | enc => simp only [inputOf, encIn, apply_ite (State.served · ws bs)]; rfl
  | dec => simp only [inputOf, decIn, apply_ite (State.served · ws bs)]; rfl
  | csum => rfl
  | vfy => rfl

theorem outputOf_served (h : outputOf op s = .next t) : outputOf op (s.served ws bs) = .next (t.served ws bs) := by
  rcases outputOf_cases h with ⟨rfl, he, hi, ho, b, hbyte, rfl⟩ | ⟨rfl, rfl⟩
  · exact encOut_eq_next (s := s.served ws bs) he hi ho hbyte
  · rfl

theorem resultOf_served : resultOf op (s.served ws bs) = resultOf op s := by
  cases op <;> rfl

/-- A step that happens is the same step when the host offers more and accepts more. -/
theorem step_served (hp : s.rstPlan = []) (h : step s = .next t) :
    step (s.served ws bs) = .next (t.served ws bs) := by
  have hr := rstNow_of_nil hp
  rcases step_cases h with ⟨hr', -⟩ | ⟨-, hb, w, r, hq, rfl⟩ | ⟨-, hb, hc⟩
  · simp [hr] at hr'
  · have hq' : (s.served ws bs).cmdQ = .command w :: (r ++ ws) := congrArg (· ++ ws) hq
    rw [step_idle_cons (s := s.served ws bs) hr hb _ _ hq', State.elapse_rstPlan_nil _ hp,
      State.elapse_rstPlan_nil (s.served ws bs) hp, decodeOffer, exec_toInstr, channelStep_idle (by exact hb)]
    rfl
  · rw [step_busy_of_nil (s := s.served ws bs) hb hp]
    rw [State.elapse_rstPlan_nil s hp] at hc
    rcases channelStep_cases hc with ⟨hb', -⟩ | ⟨-, -, hin, d, r, hq, rfl⟩ | ⟨-, -, hin, hout, -, ho⟩ |
      ⟨-, -, hin, hout, hres, -, rfl⟩
    · simp [hb] at hb'
    · have hq' : (s.served ws bs).inQ = d :: (r ++ bs) := congrArg (· ++ bs) hq
      rw [channelStep_in (s := s.served ws bs) hb rfl hin d _ hq', inputOf_served]
      rfl
    · rw [channelStep_out (s := s.served ws bs) hb rfl hin hout rfl]
      exact outputOf_served ho
    · rw [channelStep_res (s := s.served ws bs) hb rfl hin hout hres rfl, resultOf_served]
      rfl

/-! ### Every order of host moves and steps (R40) -/

variable {more : List Byte}

/-- A move that brings no reset and takes nothing back only makes an offer or a readiness explicit that `served` grants
already. -/
theorem served_hostMove (m : HostMove) (es : List RunEvent) (hrst : ∀ n, m ≠ .planReset n)
    (hkeep : m = .withdrawInput → s.inLeft = 0) :
    (hostMove m s).served (offeredWords es) (suppliedBytes es ++ more) =
      s.served (offeredWords (.host m :: es)) (suppliedBytes (.host m :: es) ++ more) := by
  cases m with
  | offer w => simp [hostMove, State.served, offeredWords, suppliedBytes]
  | supply d => simp [hostMove, State.served, offeredWords, suppliedBytes]
  | withdrawInput => rw [hostMove_withdrawInput_of_none s (hkeep rfl)]; rfl
  | takeOut r => rfl
  | takeRes r => rfl
  | planReset n => exact absurd rfl (hrst n)

theorem noReset_hostMove {m : HostMove} {es : List RunEvent} (h : NoReset s (.host m :: es)) :
    NoReset (hostMove m s) es ∧ ∀ n, m ≠ .planReset n := by
  obtain ⟨hp, hplan⟩ := h
  simp only [List.mem_cons, not_or] at hplan
  have hm : ∀ n, m ≠ .planReset n := fun n hm => (hplan n).1 (by rw [hm])
  refine ⟨⟨?_, fun n => (hplan n).2⟩, hm⟩
  cases m with
  | planReset n => exact absurd rfl (hm n)
  | offer w | supply d | withdrawInput | takeOut r | takeRes r => exact hp

theorem hostMove_inLeft_eq_zero (m : HostMove) (h : s.inLeft = 0) : (hostMove m s).inLeft = 0 := by
  cases m with
  | withdrawInput => rfl
  | offer w | supply d | takeOut r | takeRes r | planReset n => exact h

/-- An open run makes the transfers that the run with everything offered makes, as many as it has steps, and the machine
performs the rest of these once the host offers the rest. -/
theorem performs_of_runEvents (es : List RunEvent) (s : State) (ts : List Transfer) (hno : NoReset s es)
    (hkeep : .host .withdrawInput ∈ es → s.inLeft = 0)
    (h : Performs q rest ts (s.served (offeredWords es) (suppliedBytes es ++ more)))
    (hrun : runEvents es s = .next t) (hlen : stepCount es ≤ ts.length) :
    t.trace = s.trace ++ ts.take (stepCount es) ∧ Performs q rest (ts.drop (stepCount es)) (t.served [] more) := by
  induction es generalizing s ts with
  | nil =>
    obtain rfl : s = t := by simpa using hrun
    exact ⟨by simp, h⟩
  | cons e es ih =>
    cases e with
    | host m =>
      obtain ⟨hno', hm⟩ := noReset_hostMove hno
      have hwithdraw : m = .withdrawInput → s.inLeft = 0 := fun hw => hkeep (by simp [hw])
      rw [stepCount_host] at hlen ⊢
      rw [← served_hostMove m es hm hwithdraw] at h
      have hkeep' : .host .withdrawInput ∈ es → (hostMove m s).inLeft = 0 := fun hw =>
        hostMove_inLeft_eq_zero m (hkeep (List.mem_cons_of_mem _ hw))
      rw [← hostMove_trace m s]
      exact ih (hostMove m s) ts hno' hkeep' h hrun hlen
    | step =>
      obtain ⟨hp, hplan⟩ := hno
      rw [stepCount_step] at hlen ⊢
      cases hs : step s with
      | fault f => simp [runEvents, hs] at hrun
      | refused r => simp [runEvents, hs] at hrun
      | next u =>
        rw [runEvents_step _ _ _ hs] at hrun
        cases h with
        | idle => simp at hlen
        | step hs' htrace hnext =>
          obtain rfl := Host.Outcome.next.inj ((step_served hp hs).symm.trans hs')
          have hsteady := step_steady hs
          have hno' : NoReset u es := ⟨hsteady.rstPlan hp, fun n hn => hplan n (List.mem_cons_of_mem _ hn)⟩
          have hkeep' : .host .withdrawInput ∈ es → u.inLeft = 0 := fun hw =>
            hsteady.inLeft hp (hkeep (List.mem_cons_of_mem _ hw))
          obtain ⟨ht, hleft⟩ := ih u _ hno' hkeep' hnext hrun (Nat.le_of_succ_le_succ hlen)
          have hu : u.trace = s.trace ++ [_] := htrace
          exact ⟨by rw [ht, hu, List.append_assoc]; rfl, hleft⟩

/-- Bytes supplied one after the other stand behind those offered. -/
theorem runEvents_supplies (bs : List Byte) (es : List RunEvent) (s : State) :
    runEvents (bs.map (fun d => RunEvent.host (.supply d)) ++ es) s = runEvents es { s with inQ := s.inQ ++ bs } := by
  induction bs generalizing s with
  | nil => simp
  | cons b bs ih =>
    rw [List.map_cons, List.cons_append, runEvents_host, ih]
    simp [hostMove]

/-- The host completes a run by serving the engine. -/
theorem runEvents_completion (more : List Byte) (n total : Nat) (t : State) :
    runEvents (completion more n total) t = runEvents (List.replicate (total - n) .step) (t.served [] more) := by
  rw [completion, List.append_assoc, List.cons_append, List.cons_append, List.nil_append, runEvents_host,
    runEvents_host, runEvents_supplies]
  simp [hostMove, State.served]

/-- Settles O57: the open run makes the first transfers of the run with everything offered, and completing it makes the
rest. -/
theorem transferLevelRefinesOperationLevel : Obligations.TransferLevelRefinesOperationLevel := by
  intro c B more rest q s t es hfeeds hrun hlen
  obtain ⟨hb, hno, hcmd, hB, hin, hkeep⟩ := hfeeds
  have hall : Performs q rest (operationTransfers s.cfg c B) (s.served (offeredWords es) (suppliedBytes es ++ more)) :=
    performs_operation (s := s.served _ _) hb hcmd ((List.append_assoc ..).symm.trans hin) hB rfl rfl hno.1
  obtain ⟨htrace, hleft⟩ := performs_of_runEvents es s _ hno hkeep hall hrun hlen
  refine ⟨htrace, ?_, fun hn => ?_⟩
  · obtain ⟨u, hurun, hutrace, hend, -⟩ := hleft.run
    obtain ⟨hub, huq, huin⟩ := performs_nil_iff.mp hend
    rw [List.length_drop, ← runEvents_completion] at hurun
    refine ⟨u, hurun, hub, ?_, huq, huin⟩
    rw [hutrace]
    change t.trace ++ _ = _
    rw [htrace, List.append_assoc, List.take_append_drop]
  · rw [hn, List.drop_length] at hleft
    rw [hn, List.take_length] at htrace
    obtain ⟨htb, htq, htin⟩ := performs_nil_iff.mp hleft
    obtain ⟨hbytes, hwords, hres⟩ := words_of_operation s.cfg c B
    exact ⟨_, htrace, htb, (List.append_nil _).symm.trans htq, htin, hbytes, hwords, operationTransfers_getLast? ..,
      hres⟩

end Sys2Proof.Machine
end

section
/-! PROOF. What crosses the four channels: the words of an operation's one sequence of transfers (R48, R225), and the transfer
that a step makes, said once with the condition that enables it, and from it the words on the pins and on the host's side
(R57). -/

namespace Sys2Proof.Machine

variable {s t : State} {x : Transfer}

/-- Settles O22: the words and the number of the transfers of an operation. -/
theorem transfersOfAnOperation : Obligations.TransfersOfAnOperation := by
  intro cfg c B _
  obtain ⟨hin, hout, hres⟩ := words_of_operation cfg c B
  exact ⟨hin, hout, hres, operationTransfers_length cfg c B⟩

/-! ### The command word -/

theorem opCode_opOfCode (b : BitVec 2) : opCode (opOfCode b) = b := by
  revert b
  decide

/-- A command word is its fields put together again (R89, R90). -/
theorem encodeCommand_decodeCommand (w : BitVec 66) : encodeCommand (decodeCommand w) = w := by
  simp only [encodeCommand, decodeCommand, opCode_opOfCode]
  rw [BitVec.extractLsb'_append_extractLsb'_eq_extractLsb' (show 64 = 32 + 32 from rfl),
    BitVec.extractLsb'_append_extractLsb'_eq_extractLsb' (show 32 = 16 + 16 from rfl),
    BitVec.extractLsb'_append_extractLsb'_eq_extractLsb' (show 16 = 0 + 16 from rfl)]
  exact BitVec.extractLsb'_eq_self

/-! ### The transfer of a step -/

@[simp] theorem encByte_elapse (s : State) : encByte s.elapse = encByte s := by rw [State.elapse_eq]; rfl
@[simp] theorem encLast_elapse (s : State) : encLast s.elapse = encLast s := by simp [encLast]
@[simp] theorem decLast_elapse (s : State) : decLast s.elapse = decLast s := by simp [decLast]
@[simp] theorem resultOf_elapse (op : Op) (s : State) : resultOf op s.elapse = resultOf op s := by
  rw [State.elapse_eq]; cases op <;> rfl

/-- `StepTransfer s t x`: from `s` the machine makes the transfer `x` and is then in `t` (R12, R34). Each form says which
condition enables it (R39), what the host does for it (R57), and which word it carries. -/
inductive StepTransfer (s : State) : State → Transfer → Prop
  | rst : rstNow s = true → StepTransfer s (tRst s) .rst
  | cmd {w : BitVec 66} {rest : List Offer} : rstNow s = false → s.busy = false → s.cmdQ = .command w :: rest →
      StepTransfer s ({ s.elapse with cmdQ := rest }.accept (decodeCommand w)) (.cmd (decodeCommand w))
  | inp {d : Byte} {rest : List Byte} : rstNow s = false → enIn s = true → s.inQ = d :: rest →
      StepTransfer s ((inputOf s.rOp s.elapse d).consume d rest) (.inp d)
  | encOut {b : Byte} : rstNow s = false → enOut s = true → s.outReady = true → s.rOp = .enc → encByte s = some b →
      StepTransfer s (s.elapse.emit b (encLast s)) (.out b (encLast s))
  | decOut : rstNow s = false → enOut s = true → s.outReady = true → s.rOp = .dec →
      StepTransfer s (s.elapse.emptyHold.emit s.hold (decLast s)) (.out s.hold (decLast s))
  | res : rstNow s = false → enRes s = true → s.resReady = true →
      StepTransfer s (s.elapse.deliver (resultOf s.rOp s)) (.res (resultOf s.rOp s))

theorem StepTransfer.trace (h : StepTransfer s t x) : t.trace = s.trace ++ [x] := by
  cases h <;> simp

/-- Every step that answers a next state makes a transfer or a reset. -/
theorem exists_stepTransfer (h : step s = .next t) : ∃ x, StepTransfer s t x := by
  rcases step_cases h with ⟨hr, rfl⟩ | ⟨hr, hb, w, rest, hq, rfl⟩ | ⟨hr, hb, hc⟩
  · exact ⟨_, .rst hr⟩
  · exact ⟨_, .cmd hr hb hq⟩
  · rcases channelStep_cases hc with
      ⟨hidle, -⟩ | ⟨-, -, hin, d, rest, hq, rfl⟩ | ⟨-, -, -, hout, hready, ho⟩ | ⟨-, -, -, -, hres, hready, rfl⟩
    · simp [hb] at hidle
    · exact ⟨_, .inp hr (by simpa using hin) (by simpa using hq)⟩
    · rw [enOut_elapse] at hout
      rw [State.elapse_outReady] at hready
      rcases outputOf_cases ho with ⟨hop, -, -, -, b, hbyte, rfl⟩ | ⟨hop, rfl⟩
      · rw [encByte_elapse] at hbyte
        rw [encLast_elapse]
        exact ⟨_, .encOut hr hout hready hop hbyte⟩
      · rw [State.elapse_hold, decLast_elapse]
        exact ⟨_, .decOut hr hout hready hop⟩
    · rw [resultOf_elapse]
      exact ⟨_, .res hr (by simpa using hres) (by simpa using hready)⟩

/-- The transfer a step adds to those made before is the one it makes. -/
theorem stepTransfer_of_trace (h : step s = .next t) (ht : t.trace = s.trace ++ [x]) : StepTransfer s t x := by
  obtain ⟨y, hy⟩ := exists_stepTransfer h
  have hxy : [x] = [y] := List.append_cancel_left (ht.symm.trans hy.trace)
  exact (List.singleton_inj.mp hxy) ▸ hy

/-! ### The word of a transfer (R57, R135, R159) -/

theorem StepTransfer.outPins {b : Byte} {last : Bool} (h : StepTransfer s t (.out b last)) :
    outPins s = some (b, last) := by
  cases h with
  | encOut hr hout _ hop hbyte => simp [Machine.outPins, outValid, hr, hout, hop, hbyte]
  | decOut hr hout _ hop => simp [Machine.outPins, outValid, hr, hout, hop]

theorem StepTransfer.resPins {r : Result} (h : StepTransfer s t (.res r)) : resPins s = some r := by
  cases h with
  | res hr hres _ => simp [Machine.resPins, resValid, hr, hres]

/-- Settles O44, by the form of the transfer. -/
theorem pinsCarryTheTransferredWord : Obligations.PinsCarryTheTransferredWord := by
  intro s t h
  refine ⟨fun c hc => ?_, fun d hd => ?_, fun b last ho => ?_, fun r hr => ?_, fun hrst => ?_⟩
  · cases stepTransfer_of_trace h hc with
    | cmd _ _ hq => simp [hq, encodeCommand_decodeCommand]
  · cases stepTransfer_of_trace h hd with
    | inp _ _ hq => simp [hq]
  · have hx := stepTransfer_of_trace h ho
    refine ⟨hx.outPins, ?_⟩
    cases hx <;> simp
  · have hx := stepTransfer_of_trace h hr
    refine ⟨hx.resPins, ?_⟩
    cases hx
    simp
  · cases stepTransfer_of_trace h hrst
    simp

end Sys2Proof.Machine
end

section
/-! PROOF. A transfer happens exactly on valid and ready (R57): the transfer that a step makes against the one enabled
channel. -/

namespace Sys2Proof.Machine

variable {s : State}

/-- An enabled step of an operation is the only enabled one (R39(b)). -/
theorem Inv.enabled_alone (h : Inv s) :
    (enIn s = true → enCmd s = false ∧ enOut s = false ∧ enRes s = false) ∧
    (enOut s = true → enCmd s = false ∧ enIn s = false ∧ enRes s = false) ∧
    (enRes s = true → enCmd s = false ∧ enIn s = false ∧ enOut s = false) := by
  cases hb : s.busy with
  | false =>
    obtain ⟨-, hin, hout, hres⟩ := enabled_of_idle hb
    simp [hin, hout, hres]
  | true =>
    have hcmd : enCmd s = false := by simp [enCmd, hb]
    rcases h.one_enabled hb with ⟨hin, hout, hres⟩ | ⟨hin, hout, hres⟩ | ⟨hin, hout, hres⟩ <;>
      simp [hcmd, hin, hout, hres]

/-- Settles O45: the form of the transfer names the one enabled channel and the host's part in it. -/
theorem transferHappensOnValidAndReady : Obligations.TransferHappensOnValidAndReady := by
  intro s t h ht
  obtain ⟨x, hx⟩ := exists_stepTransfer ht
  obtain ⟨hofIn, hofOut, hofRes⟩ := h.enabled_alone
  simp only [hx.trace, List.append_cancel_left_eq, List.singleton_inj, cmdReady, inReady, outValid, resValid]
  cases hx with
  | rst hr => simp [hr]
  | cmd hr hb hq =>
    obtain ⟨hcmd, hin, hout, hres⟩ := enabled_of_idle hb
    simp [hr, hcmd, hin, hout, hres, cmdValid, hq]
  | inp hr hin hq =>
    obtain ⟨hcmd, hout, hres⟩ := hofIn hin
    simp [hr, hcmd, hin, hout, hres, inValid, hq]
  | encOut hr hout hready =>
    obtain ⟨hcmd, hin, hres⟩ := hofOut hout
    simp [hr, hcmd, hin, hout, hres, hready]
  | decOut hr hout hready =>
    obtain ⟨hcmd, hin, hres⟩ := hofOut hout
    simp [hr, hcmd, hin, hout, hres, hready]
  | res hr hres hready =>
    obtain ⟨hcmd, hin, hout⟩ := hofRes hres
    simp [hr, hcmd, hin, hout, hres, hready]

end Sys2Proof.Machine
end

section
/-! PROOF. The transfers stay well ordered (R62): each one is in order after the progress that the registers hold, and they then
hold the next progress (R33). -/

namespace Sys2Proof.Machine

variable {s t : State} {x : Transfer}

/-! ### Reading one transfer more -/

/-- A scan of more transfers goes on where the first scan ends. -/
theorem scan_append (p : Option Progress) (ts us : List Transfer) :
    scan p (ts ++ us) = (scan p ts).bind (fun q => scan q us) := by
  induction ts generalizing p with
  | nil => rfl
  | cons x ts ih => simp only [List.cons_append, scan, ih, Option.bind_assoc]

theorem scan_singleton (p : Option Progress) (x : Transfer) : scan p [x] = advance p x := by
  simp [scan]

/-- A transfer in order, after well-ordered ones. -/
theorem Ordered.snoc (h : Ordered s) (ht : t.trace = s.trace ++ [x]) (hx : advance s.progress x = some t.progress) :
    Ordered t := by
  rw [Ordered, ht, scan_append, h, Option.bind_some, scan_singleton, hx]

theorem progress_of_idle (hb : s.busy = false) : s.progress = none := by simp [State.progress, hb]

theorem progress_of_busy (hb : s.busy = true) : s.progress = some ⟨s.latched, s.icnt.toNat, s.ocnt.toNat⟩ := by
  simp [State.progress, hb]

theorem advance_rst (p : Option Progress) : advance p .rst = some none := by cases p <;> rfl

/-! ### Output in order (R59, R62(e)) -/

@[simp] theorem State.latched_emit (s : State) (b : Byte) (last : Bool) : (s.emit b last).latched = s.latched := rfl
@[simp] theorem State.latched_emptyHold (s : State) : s.emptyHold.latched = s.latched := rfl

/-- An enabled `T_OUT` does not wrap `ocnt` (R32). -/
theorem Inv.succ_ocnt_toNat (h : Inv s) (hout : enOut s = true) : (s.ocnt + 1).toNat = s.ocnt.toNat + 1 := by
  obtain ⟨hb, ⟨he, -, ho⟩ | hf⟩ := (enOut_iff s).mp hout
  · have hlen := ((encOk_iff s).mp he).2
    have hmax : s.payloadMax < 65528 := s.cfg.payloadMax.isLt
    exact Half.succ_toNat (by omega)
  · have hi := h.icnt_of_holdFull hb hf
    exact Half.succ_toNat (by have := s.icnt.isLt; omega)

/-- An enabled `T_OUT` of ENC comes after all input and before the frame is complete. -/
theorem Inv.encOk_of_enOut (h : Inv s) (hout : enOut s = true) (hop : s.rOp = .enc) :
    encOk s = true ∧ s.icnt = s.rLen ∧ s.ocnt.toNat < 8 + s.rLen.toNat := by
  obtain ⟨hb, he | hf⟩ := (enOut_iff s).mp hout
  · exact he
  · obtain ⟨-, -, hempty⟩ := h.decOnly hb (by simp [hop])
    simp [hempty] at hf

/-- An output byte in order, with the marker of R59. -/
theorem Inv.advance_out (h : Inv s) (hout : enOut s = true) {b : Byte} {last : Bool}
    (hp : outAllowed ⟨s.latched, s.icnt.toNat, s.ocnt.toNat⟩ = true)
    (hlast : last = decide (s.ocnt.toNat + 1 = outTotal s.latched)) :
    advance s.progress (.out b last) = some (some ⟨s.latched, s.icnt.toNat, (s.ocnt + 1).toNat⟩) := by
  rw [progress_of_busy ((enOut_iff s).mp hout).1, h.succ_ocnt_toNat hout]
  simp [advance, hp, hlast]

theorem Inv.outAllowed_enc (h : Inv s) (hout : enOut s = true) (hop : s.rOp = .enc) :
    outAllowed ⟨s.latched, s.icnt.toNat, s.ocnt.toNat⟩ = true := by
  obtain ⟨-, hi, ho⟩ := h.encOk_of_enOut hout hop
  simp [outAllowed, outTotal, hop, hi, ho]

theorem encLast_eq (hop : s.rOp = .enc) : encLast s = decide (s.ocnt.toNat + 1 = outTotal s.latched) := by
  simp only [encLast, outTotal, State.latched_op, hop, State.latched_len, decide_eq_decide]
  omega

/-- The byte in `hold` is one of the `r_len - 8` payload bytes. -/
theorem Inv.outAllowed_dec (h : Inv s) (hout : enOut s = true) (hop : s.rOp = .dec) :
    outAllowed ⟨s.latched, s.icnt.toNat, s.ocnt.toNat⟩ = true := by
  have hb := ((enOut_iff s).mp hout).1
  have hi := h.icnt_of_holdFull hb (holdFull_of_enOut (by simp [hop]) hout)
  have hle := h.icntLe hb
  simp only [outAllowed, outTotal, State.latched_op, hop, State.latched_len, Bool.and_eq_true, decide_eq_true_eq]
  omega

theorem decLast_eq (hop : s.rOp = .dec) : decLast s = decide (s.ocnt.toNat + 1 = outTotal s.latched) := by
  simp only [decLast, outTotal, State.latched_op, hop, State.latched_len, decide_eq_decide]
  omega

/-! ### The result in order (R62(d), R92) -/

@[simp] theorem okResult_status (op : Op) (seq : Seq) (csum len : Half) (ok : Bool) :
    (okResult op seq csum len ok).status = .ok := rfl

/-- A result names its operation (R92). -/
theorem resultOf_op (op : Op) (s : State) : (resultOf op s).op = op := by
  cases op with
  | enc => simp only [resultOf, encRes]; split <;> rfl
  | dec => simp only [resultOf, decRes]; split_ifs <;> rfl
  | csum => rfl
  | vfy => rfl

/-- A result comes after all output of its operation, which is none when the operation failed (R62(d), R180). -/
theorem Inv.ocnt_at_result (h : Inv s) (hres : enRes s = true) :
    s.ocnt.toNat = if (resultOf s.rOp s).status = .ok then outTotal s.latched else 0 := by
  obtain ⟨hb, hi, hf, hframe⟩ := (enRes_iff s).mp hres
  cases hop : s.rOp with
  | csum => simp [resultOf, csumRes, outTotal, hop, h.sumCount hb (.inl hop)]
  | vfy => simp [resultOf, vfyRes, outTotal, hop, h.sumCount hb (.inr hop)]
  | enc =>
    cases he : encOk s with
    | true => simp [resultOf, encRes_accepted s he, outTotal, hop, hframe he]
    | false =>
      have ho : s.ocnt = 0 := by
        by_contra hne
        exact absurd ((h.encCount hb hop).2 hne).1 (by simp [he])
      simp [resultOf, encRes_refused s he, raiseError_status, ho]
  | dec =>
    obtain ⟨hpass, hfail⟩ := h.decCount hb hop
    by_cases hlen : s.rLen.toNat < 8
    · have ho : s.ocnt = 0 := hfail (by simp [decPass, hlen])
      simp [resultOf, decRes_short s hlen, raiseError_status, ho]
    · by_cases hd : declared s = s.rLen
      · have hp : decPass s = true := (decPass_iff s).mpr ⟨hop, by omega, by rw [hi]; omega, hd⟩
        have hcount : s.rLen.toNat = s.ocnt.toNat + 8 := by simpa [hf, hi] using hpass hp
        simp [resultOf, decRes_ok s (by omega) hd, outTotal, hop, hcount]
      · have ho : s.ocnt = 0 := hfail (decPass_eq_false_of_declared hd)
        simp [resultOf, decRes_length s (by omega) hd, raiseError_status, ho]

/-! ### Every transfer in order -/

/-- The transfer a step makes is in order, and the registers after it say how far the operation is (R33). -/
theorem Inv.advance_stepTransfer (h : Inv s) (hx : StepTransfer s t x) : advance s.progress x = some t.progress := by
  cases hx with
  | rst => exact advance_rst _
  | cmd _ hb => rw [progress_of_idle hb]; rfl
  | inp _ hin =>
    obtain ⟨hb, hi, -⟩ := (enIn_iff s).mp hin
    have hn := Half.succ_toNat_of_lt hi
    rw [progress_of_busy hb, progress_of_busy (by simpa)]
    simp only [State.consume_icnt, inputOf_icnt, State.elapse_icnt, hn]
    simp [advance, hi]
  | encOut _ hout _ hop =>
    rw [h.advance_out hout (h.outAllowed_enc hout hop) (encLast_eq hop),
      progress_of_busy (by simpa using ((enOut_iff s).mp hout).1)]
    simp
  | decOut _ hout _ hop =>
    rw [h.advance_out hout (h.outAllowed_dec hout hop) (decLast_eq hop),
      progress_of_busy (by simpa using ((enOut_iff s).mp hout).1)]
    simp
  | res _ hres =>
    obtain ⟨hb, hi, -⟩ := (enRes_iff s).mp hres
    rw [progress_of_busy hb, progress_of_idle rfl]
    exact if_pos ⟨congrArg BitVec.toNat hi, resultOf_op _ s, h.ocnt_at_result hres⟩

/-- Settles O49: a step adds one transfer to the well-ordered ones, in order. -/
theorem transfersStayOrdered : Obligations.TransfersStayOrdered := by
  intro s t h ho ht
  obtain ⟨x, hx⟩ := exists_stepTransfer ht
  exact ho.snoc hx.trace (h.advance_stepTransfer hx)

end Sys2Proof.Machine
end

section
/-! PROOF. The encodings of 30_encoding.md: the decoder gives back every instruction and every result from its encoding
(R80, R90, R92), the fields stand at the stated bits, and every command word is legal (R89). -/

namespace Sys2Proof.Machine

/-! ### The words of the instructions (R80, R90) -/

theorem decodeHeader_encodeHeader (k len : Half) (seq : Seq) :
    decodeHeader (encodeHeader k len seq) = .frame k len seq := by
  have hk : (encodeHeader k len seq).extractLsb' 48 16 = k := by
    rw [encodeHeader, BitVec.extractLsb'_append_eq_of_le (by decide)]
    exact BitVec.extractLsb'_append_eq_left
  have hlen : (encodeHeader k len seq).extractLsb' 32 16 = len := by
    rw [encodeHeader, BitVec.extractLsb'_append_eq_of_le (by decide)]
    exact BitVec.extractLsb'_append_eq_right
  have hseq : (encodeHeader k len seq).extractLsb' 0 32 = seq := BitVec.extractLsb'_append_eq_right
  rw [decodeHeader, hk, hlen, hseq]

theorem decodeOffer_encodeCommand (c : Command) : decodeOffer (.command (encodeCommand c)) = c.toInstr := by
  rw [decodeOffer, decodeCommand_encodeCommand]

theorem decodeOffer_encode (i : Instr) : decodeOffer (encode i) = i := by
  cases i with
  | enc seq k len => exact decodeOffer_encodeCommand ⟨.enc, seq, k, len⟩
  | dec seq k len => exact decodeOffer_encodeCommand ⟨.dec, seq, k, len⟩
  | csum seq k len => exact decodeOffer_encodeCommand ⟨.csum, seq, k, len⟩
  | vfy seq k len => exact decodeOffer_encodeCommand ⟨.vfy, seq, k, len⟩
  | frame k len seq => exact decodeHeader_encodeHeader k len seq

/-- A number decodes when it is a word of the opcode table, to what the decoder reads from that word. -/
theorem decodeTableWord_eq_some_iff {nbits w : Nat} {i : Instr} :
    decodeTableWord nbits w = some i ↔ ∃ o, readTableWord nbits w = .ok o ∧ decodeOffer o = i := by
  rw [decodeTableWord]
  cases readTableWord nbits w <;> simp

/-- Numbering a word of the opcode table loses nothing of it. -/
theorem readTableWord_encodeTableWord (i : Instr) :
    readTableWord (encodeTableWord i).1 (encodeTableWord i).2 = .ok (encode i) := by
  rw [encodeTableWord]
  cases encode i with
  | command w => simp [readTableWord, w.isLt]
  | header h => simp [readTableWord, h.isLt]

/-- Settles O2: the encoding of an instruction is a table word, and the decoder reads the instruction from it. -/
theorem decodeOfEncodeIsIdentity : Obligations.DecodeOfEncodeIsIdentity := fun i =>
  ⟨decodeOffer_encode i,
    decodeTableWord_eq_some_iff.mpr ⟨encode i, readTableWord_encodeTableWord i, decodeOffer_encode i⟩⟩

/-- Settles O1: the decoder run on each word. -/
theorem writtenOutWordsDecode : Obligations.WrittenOutWordsDecode := by
  unfold Obligations.WrittenOutWordsDecode
  decide

/-- Settles O4: the decoder reads the fields at the stated bits, and it reads those of the command encoded. -/
theorem commandWordFieldPositions : Obligations.CommandWordFieldPositions := by
  refine ⟨fun c => ?_, rfl, rfl, rfl, rfl⟩
  have h := decodeCommand_encodeCommand c
  refine ⟨?_, congrArg Command.seq h, congrArg Command.csum h, congrArg Command.len h⟩
  rw [← congrArg Command.op h]
  exact (opCode_opOfCode _).symm

/-- Settles O3: the one command is the decoded one, and an idle engine accepts it. -/
theorem everyCommandWordIsLegal : Obligations.EveryCommandWordIsLegal := by
  refine fun w => ⟨⟨decodeCommand w, rfl, encodeCommand_decodeCommand w, ?_⟩, fun s rest hb hr hq => ?_⟩
  · rintro c rfl
    exact (decodeCommand_encodeCommand c).symm
  · rw [step_idle_cons hr hb _ rest hq, decodeOffer, exec_toInstr, channelStep_idle (by simpa using hb)]
    exact ⟨_, rfl⟩

/-! ### The result word (R92, R93) -/

theorem statusOfCode_statusCode (st : Status) : statusOfCode (statusCode st) = st := by
  cases st <;> decide

theorem statusCode_statusOfCode (b : BitVec 2) : statusCode (statusOfCode b) = b := by
  revert b
  decide

theorem ofBool_getLsbD {w : Nat} (x : BitVec w) (i : Nat) : BitVec.ofBool (x.getLsbD i) = x.extractLsb' i 1 := by
  refine BitVec.eq_of_getLsbD_eq fun j hj => ?_
  obtain rfl : j = 0 := by omega
  simp

/-- The fields of a result stand at the bits of R92. -/
theorem encodeResult_fields (r : Result) :
    (encodeResult r).extractLsb' 68 1 = BitVec.ofBool r.ok ∧ (encodeResult r).extractLsb' 66 2 = opCode r.op ∧
    (encodeResult r).extractLsb' 64 2 = statusCode r.status ∧ (encodeResult r).extractLsb' 32 32 = r.seq ∧
    (encodeResult r).extractLsb' 16 16 = r.csum ∧ (encodeResult r).extractLsb' 0 16 = r.len := by
  rw [encodeResult]
  refine ⟨?_, ?_, ?_, ?_, ?_, ?_⟩
  · iterate 5 rw [BitVec.extractLsb'_append_eq_of_le (by decide)]
    exact BitVec.extractLsb'_eq_self
  · iterate 4 rw [BitVec.extractLsb'_append_eq_of_le (by decide)]
    exact BitVec.extractLsb'_append_eq_right
  · iterate 3 rw [BitVec.extractLsb'_append_eq_of_le (by decide)]
    exact BitVec.extractLsb'_append_eq_right
  · iterate 2 rw [BitVec.extractLsb'_append_eq_of_le (by decide)]
    exact BitVec.extractLsb'_append_eq_right
  · rw [BitVec.extractLsb'_append_eq_of_le (by decide)]
    exact BitVec.extractLsb'_append_eq_right
  · exact BitVec.extractLsb'_append_eq_right

theorem decodeResult_encodeResult (r : Result) : decodeResult (encodeResult r) = r := by
  obtain ⟨hok, hop, hst, hseq, hk, hlen⟩ := encodeResult_fields r
  have hok' : (encodeResult r).getLsbD 68 = r.ok := by
    rwa [← ofBool_getLsbD, BitVec.ofBool_eq_iff_eq] at hok
  simp only [decodeResult, hok', hop, hst, hseq, hk, hlen, opOfCode_opCode, statusOfCode_statusCode]

/-- A result word is its fields put together again (R92). -/
theorem encodeResult_decodeResult (w : BitVec 69) : encodeResult (decodeResult w) = w := by
  simp only [encodeResult, decodeResult, opCode_opOfCode, statusCode_statusOfCode, ofBool_getLsbD]
  rw [BitVec.extractLsb'_append_extractLsb'_eq_extractLsb' (show 68 = 66 + 2 from rfl),
    BitVec.extractLsb'_append_extractLsb'_eq_extractLsb' (show 66 = 64 + 2 from rfl),
    BitVec.extractLsb'_append_extractLsb'_eq_extractLsb' (show 64 = 32 + 32 from rfl),
    BitVec.extractLsb'_append_extractLsb'_eq_extractLsb' (show 32 = 16 + 16 from rfl),
    BitVec.extractLsb'_append_extractLsb'_eq_extractLsb' (show 16 = 0 + 16 from rfl)]
  exact BitVec.extractLsb'_eq_self

/-- Settles O5: the two round trips and the positions of the fields. -/
theorem resultWordFieldPositions : Obligations.ResultWordFieldPositions :=
  ⟨fun r => ⟨decodeResult_encodeResult r, encodeResult_fields r⟩, encodeResult_decodeResult, rfl, rfl, rfl, rfl⟩

/-! ### The header of an encoded frame (R80, R137(a)) -/

theorem beNat_append_singleton (bs : List Byte) (b : Byte) : beNat (bs ++ [b]) = beNat bs * 256 + b.toNat := by
  simp [beNat]

theorem beNat_append (bs cs : List Byte) : beNat (bs ++ cs) = beNat bs * 256 ^ cs.length + beNat cs := by
  induction cs using List.reverseRecOn with
  | nil => simp [beNat]
  | append_singleton cs c ih =>
    rw [← List.append_assoc, beNat_append_singleton, ih, beNat_append_singleton, List.length_append,
      List.length_singleton, pow_succ]
    ring

theorem beNat_bytes16 (v : Half) : beNat (bytes16 v) = v.toNat := by
  have hv := v.isLt
  simp only [beNat, bytes16, List.foldl_cons, List.foldl_nil, BitVec.extractLsb'_toNat, Nat.shiftRight_eq_div_pow]
  omega

theorem beNat_bytes32 (v : Seq) : beNat (bytes32 v) = v.toNat := by
  have hv := v.isLt
  simp only [beNat, bytes32, List.foldl_cons, List.foldl_nil, BitVec.extractLsb'_toNat, Nat.shiftRight_eq_div_pow]
  omega

theorem toNat_append_eq_add {v w : Nat} (x : BitVec v) (y : BitVec w) : (x ++ y).toNat = x.toNat * 2 ^ w + y.toNat := by
  rw [BitVec.toNat_append, ← Nat.shiftLeft_add_eq_or_of_lt y.isLt, Nat.shiftLeft_eq]

/-- The header word is what its eight bytes spell, the first the most significant. -/
theorem encodeHeader_eq_beNat (k len : Half) (seq : Seq) :
    encodeHeader k len seq = BitVec.ofNat 64 (beNat (bytes16 k ++ bytes16 len ++ bytes32 seq)) := by
  have h : (encodeHeader k len seq).toNat = beNat (bytes16 k ++ bytes16 len ++ bytes32 seq) := by
    rw [encodeHeader, toNat_append_eq_add, toNat_append_eq_add, beNat_append, beNat_append, beNat_bytes16,
      beNat_bytes16, beNat_bytes32, bytes16_length, bytes32_length]
    norm_num
  rw [← h, BitVec.ofNat_toNat, BitVec.setWidth_eq]

theorem encodeFrame_take_eight (seq : Seq) (P : List Byte) :
    (encodeFrame seq P).take 8 =
      bytes16 (zext16 (checksum seq P)) ++ bytes16 (BitVec.ofNat 16 (8 + P.length)) ++ bytes32 seq := rfl

/-- Settles O6: the frame is its header's eight bytes, which spell the header word, and the payload. For a payload beyond the
bound it would hold too, since the table's row and the frame have the same 16 bits of the total length. -/
theorem frameHeaderWordOfEncodedFrame : Obligations.FrameHeaderWordOfEncodedFrame := by
  intro seq P _
  refine ⟨?_, rfl, encodeFrame_length seq P⟩
  rw [encode, encodeHeader_eq_beNat, encodeFrame_take_eight]

/-! ### What a step does with a word (R2, R89, R95) -/

/-- Settles O33: the row has no meaning but the refusal, and an idle engine runs what it is offered. -/
theorem frameRowIsNoOperation : Obligations.FrameRowIsNoOperation := by
  refine ⟨exec_frame, fun h rest s hr hb hq => ?_⟩
  rw [step_idle_cons hr hb _ rest hq, decodeOffer, decodeHeader, exec_frame]

theorem withFetchWord_of_readTableWord {nbits w : Nat} {o : Offer} (h : readTableWord nbits w = .ok o) (s : State) :
    s.withFetchWord nbits w = offerFirst s o := by
  rw [State.withFetchWord, h]

/-- No reset is due where a word is placed: the resets due at once are dropped from the plan. -/
theorem rstNow_offerFirst (s : State) (o : Offer) : rstNow (offerFirst s o) = false := by
  have h := List.head?_dropWhile_not (· == 0) s.rstPlan
  change ((s.rstPlan.dropWhile (· == 0)).head? == some 0) = false
  cases hp : (s.rstPlan.dropWhile (· == 0)).head? with
  | none => rfl
  | some n =>
    rw [hp] at h
    simpa using h

/-- Settles O40: the word placed is first on CMD of an idle engine with no reset due, and the step takes it off. -/
theorem placedTableWordRuns : Obligations.PlacedTableWordRuns := by
  intro s nbits w i h
  obtain ⟨o, ho, rfl⟩ := decodeTableWord_eq_some_iff.mp h
  rw [withFetchWord_of_readTableWord ho, step_idle_cons (rstNow_offerFirst s o) rfl o s.cmdQ rfl, State.elapse_eq]
  rfl

end Sys2Proof.Machine
end

section
/-! PROOF. The checksum arithmetic and `decode` on frames field by field: the running sum in any order (R113), the verdict
on all 16 bits (R114, R115), and which corruptions of a frame are noticed (R121). -/

namespace Sys2Proof.Machine

variable {seq seq' : Seq} {P Q P' : List Byte} {c t : Half} {k : Nat} {d : Byte}

/-! ### The exact sum (R110, R111) -/

theorem extract_byte_toNat {w : Nat} (x : BitVec w) (k : Nat) : (x.extractLsb' k 8).toNat = x.toNat / 2 ^ k % 256 := by
  rw [BitVec.extractLsb'_toNat, Nat.shiftRight_eq_div_pow]

theorem byteSum_bytes32 (q : Seq) :
    byteSum (bytes32 q) =
      q.toNat / 2 ^ 24 + q.toNat / 2 ^ 16 % 256 + q.toNat / 2 ^ 8 % 256 + q.toNat % 256 := by
  have hq := q.isLt
  simp only [bytes32, byteSum_cons, byteSum_nil, extract_byte_toNat]
  omega

theorem seqsum_toNat (q : Seq) : (seqsum q).toNat = byteSum (bytes32 q) % 256 := by
  simp only [seqsum, bytes32, byteSum_cons, byteSum_nil, BitVec.toNat_ofNat, Nat.add_assoc, Nat.add_zero]

/-- The checksum sums the bytes of a frame from offset 4 on (R111). -/
theorem checksum_toNat_eq_byteSum (seq : Seq) (P : List Byte) :
    (checksum seq P).toNat = byteSum (bytes32 seq ++ P) % 256 := by
  rw [checksum_toNat, seqsum_toNat, byteSum_append, Nat.mod_add_mod]

theorem checksum_nil (seq : Seq) : checksum seq [] = seqsum seq :=
  (foldl_accAdd_seqsum seq []).symm

/-- Settles O7: `seqsum` reduces the sum of the four bytes, whose values are the quotients of the number. -/
theorem seqsumSumsTheFourBytes : Obligations.SeqsumSumsTheFourBytes :=
  ⟨fun q => by rw [seqsum_toNat, byteSum_bytes32], by decide⟩

/-- Settles O8: reducing `seqsum` first changes nothing of the reduced sum. -/
theorem checksumSumsSequenceAndPayload : Obligations.ChecksumSumsSequenceAndPayload :=
  ⟨checksum_toNat_eq_byteSum, checksum_nil⟩

/-! ### The running sum (R113) -/

theorem byteSum_perm (h : Q.Perm P) : byteSum Q = byteSum P :=
  (h.map BitVec.toNat).sum_eq

theorem checksum_perm (h : Q.Perm P) : checksum seq Q = checksum seq P := by
  rw [checksum, checksum, byteSum_perm h]

/-- Started at 0 and fed the four bytes of the sequence number, as DEC does (R41), the accumulator is `seqsum`. -/
theorem foldl_accAdd_bytes32 (seq : Seq) : (bytes32 seq).foldl accAdd 0 = seqsum seq :=
  BitVec.eq_of_toNat_eq (by simp [foldl_accAdd_toNat, seqsum_toNat])

/-- Settles O9: both starts meet at `seqsum`, and a permutation keeps the exact sum of the payload. -/
theorem runningSumIsChecksumInAnyOrder : Obligations.RunningSumIsChecksumInAnyOrder := by
  refine ⟨fun a b => Nat.mod_add_mod a 256 b, fun seq P Q h => ?_⟩
  rw [foldl_accAdd_bytes32, foldl_accAdd_seqsum, checksum_perm h]
  exact ⟨rfl, rfl⟩

/-! ### The verdict (R114, R115) -/

theorem verify_iff : verify c seq P = true ↔ c = zext16 (checksum seq P) := by
  simp [verify]

theorem verify_eq_decide : verify c seq P = decide (c = zext16 (checksum seq P)) := rfl

theorem verify_iff_toNat : verify c seq P = true ↔ c.toNat = (checksum seq P).toNat := by
  rw [verify_iff, ← BitVec.toNat_inj, zext16_toNat]

/-- A word with one bit flipped is another word: the two differ at that bit. -/
theorem xor_shiftLeft_one_ne {i : Nat} (hi : i < 16) (x : Half) : x ^^^ (1#16 <<< i) ≠ x := by
  intro h
  have hbit := congrArg (BitVec.getLsbD · i) h
  simp [hi] at hbit

/-- Settles O10: the field is compared as a number, a byte is at most 255, and a flipped field is another field. -/
theorem verifyComparesAllSixteenBits : Obligations.VerifyComparesAllSixteenBits := by
  refine fun c seq P => ⟨verify_iff_toNat, fun hc => ?_, fun i hi hv => ?_⟩
  · have hbyte := (checksum seq P).isLt
    rw [Bool.eq_false_iff, ne_eq, verify_iff_toNat]
    omega
  · rw [Bool.eq_false_iff, ne_eq, verify_iff, ← verify_iff.mp hv]
    exact xor_shiftLeft_one_ne hi c

/-! ### `decode` on a frame given by its fields (R80, R150) -/

theorem be16_bytes16 (v : Half) : be16 (v.extractLsb' 8 8) (v.extractLsb' 0 8) = v := by
  have hv := v.isLt
  apply BitVec.eq_of_toNat_eq
  rw [be16_toNat, extract_byte_toNat, extract_byte_toNat]
  omega

theorem be32_bytes32 (v : Seq) :
    be32 (v.extractLsb' 24 8) (v.extractLsb' 16 8) (v.extractLsb' 8 8) (v.extractLsb' 0 8) = v := by
  have hv := v.isLt
  apply BitVec.eq_of_toNat_eq
  simp only [be32_toNat, extract_byte_toNat]
  omega

/-- The frame with the fields `c`, `t` and `seq` and the payload `P` (R80). -/
def frameOf (c t : Half) (seq : Seq) (P : List Byte) : List Byte :=
  bytes16 c ++ bytes16 t ++ bytes32 seq ++ P

theorem encodeFrame_eq_frameOf (seq : Seq) (P : List Byte) :
    encodeFrame seq P = frameOf (zext16 (checksum seq P)) (BitVec.ofNat 16 (8 + P.length)) seq P := rfl

theorem frameOf_length (c t : Half) (seq : Seq) (P : List Byte) : (frameOf c t seq P).length = 8 + P.length := by
  simp only [frameOf, List.length_append, bytes16_length, bytes32_length]

theorem decodeFrame_frameOf (c t : Half) (seq : Seq) (P : List Byte) :
    decodeFrame (frameOf c t seq P) =
      if t.toNat = 8 + P.length then
        .ok { sequenceNumber := seq, checksum := c, totalLength := t, payload := P }
      else .error .length := by
  have h := decodeFrame_cons (c.extractLsb' 8 8) (c.extractLsb' 0 8) (t.extractLsb' 8 8) (t.extractLsb' 0 8)
    (seq.extractLsb' 24 8) (seq.extractLsb' 16 8) (seq.extractLsb' 8 8) (seq.extractLsb' 0 8) P
  rwa [← be16_toNat, be16_bytes16, be16_bytes16, be32_bytes32] at h

theorem totalLength_toNat (hP : P.length ≤ 65527) : (BitVec.ofNat 16 (8 + P.length)).toNat = 8 + P.length := by
  rw [BitVec.toNat_ofNat]
  omega

/-- With the total length of its payload, a frame decodes to its fields, whatever they are. -/
theorem decodeFrame_frameOf_length (c : Half) (seq : Seq) (hP : P.length ≤ 65527) :
    decodeFrame (frameOf c (BitVec.ofNat 16 (8 + P.length)) seq P) =
      .ok { sequenceNumber := seq, checksum := c, totalLength := BitVec.ofNat 16 (8 + P.length), payload := P } := by
  rw [decodeFrame_frameOf, if_pos (totalLength_toNat hP)]

/-- Settles O14: the frame decodes to the fields it was made of, and its checksum field is the zero-extended checksum. -/
theorem decodeOfEncodeVerifies : Obligations.DecodeOfEncodeVerifies := fun seq _ hP =>
  ⟨_, decodeFrame_frameOf_length _ seq hP, rfl, totalLength_toNat hP, rfl, zext16_toNat _, verify_iff.mpr rfl⟩

theorem decOp_of_ok {B : List Byte} {p : Packet} (h : decodeFrame B = .ok p) :
    decOp B = (p.payload, okResult .dec p.sequenceNumber p.checksum p.totalLength
      (verify p.checksum p.sequenceNumber p.payload)) := by
  rw [decOp, h]

theorem decOp_of_error {B : List Byte} {e : OpError} (h : decodeFrame B = .error e) :
    decOp B = ([], raiseError .dec e) := by
  rw [decOp, h]

/-- DEC of a frame with the total length of its payload: the verdict is the only thing that can fail. -/
theorem decOp_frameOf_length (c : Half) (seq : Seq) (hP : P.length ≤ 65527) :
    decOp (frameOf c (BitVec.ofNat 16 (8 + P.length)) seq P) =
      (P, okResult .dec seq c (BitVec.ofNat 16 (8 + P.length)) (verify c seq P)) :=
  decOp_of_ok (decodeFrame_frameOf_length c seq hP)

/-! ### Corrupted frames (R121) -/

/-- Settles O17: the replaced field is decoded as it is, and the verdict compares it with the checksum. -/
theorem replacedChecksumFieldVerdict : Obligations.ReplacedChecksumFieldVerdict := by
  intro seq P c hP
  rw [← verify_eq_decide]
  exact ⟨decOp_frameOf_length c seq hP, fun i hi => xor_shiftLeft_one_ne hi _⟩

/-- A field with the checksum of one frame verifies another sequence number and payload exactly when they have it too. -/
theorem verify_zext16_iff {a : Byte} : verify (zext16 a) seq P = true ↔ checksum seq P = a := by
  rw [verify_iff_toNat, zext16_toNat, BitVec.toNat_inj, eq_comm]

/-- DEC of an encoded frame whose sequence number and payload are replaced, the payload by one of the same length. -/
theorem decOp_replaced_body (seq seq' : Seq) (hP : P.length ≤ 65527) (hlen : P'.length = P.length) :
    decOp (frameOf (zext16 (checksum seq P)) (BitVec.ofNat 16 (8 + P.length)) seq' P') =
      (P', okResult .dec seq' (zext16 (checksum seq P)) (BitVec.ofNat 16 (8 + P.length))
        (verify (zext16 (checksum seq P)) seq' P')) := by
  rw [← hlen]
  exact decOp_frameOf_length _ seq' (hlen ▸ hP)

/-- Settles O19: the header kept has the total length of both frames and the checksum of the first. -/
theorem compensatingCorruptionPasses : Obligations.CompensatingCorruptionPasses := by
  intro seq seq' P P' hP hlen
  change (decOp (frameOf _ _ seq' P')).2.status = .ok ∧ ((decOp (frameOf _ _ seq' P')).2.ok = true ↔ _)
  rw [decOp_replaced_body seq seq' hP hlen, ← checksum_toNat, ← checksum_toNat, BitVec.toNat_inj]
  exact ⟨rfl, verify_zext16_iff⟩

/-! ### One corrupted byte (R121(c)) -/

theorem bytes16_be16 (a b : Byte) : bytes16 (be16 a b) = [a, b] := by
  have ha := a.isLt
  have hb := b.isLt
  have h1 : (be16 a b).extractLsb' 8 8 = a :=
    BitVec.eq_of_toNat_eq (by rw [extract_byte_toNat, be16_toNat]; omega)
  have h0 : (be16 a b).extractLsb' 0 8 = b :=
    BitVec.eq_of_toNat_eq (by rw [extract_byte_toNat, be16_toNat]; omega)
  rw [bytes16, h1, h0]

theorem bytes32_be32 (a b c d : Byte) : bytes32 (be32 a b c d) = [a, b, c, d] := by
  obtain ⟨h3, h2, h1, h0⟩ := extract_be32 a b c d
  rw [bytes32, h3, h2, h1, h0]

/-- Any two bytes are a 16-bit field. -/
theorem exists_eq_bytes16 (l : List Byte) (h : l.length = 2) : ∃ v, l = bytes16 v := by
  match l, h with
  | [a, b], _ => exact ⟨be16 a b, (bytes16_be16 a b).symm⟩

/-- Any four bytes are a sequence number. -/
theorem exists_eq_bytes32 (l : List Byte) (h : l.length = 4) : ∃ v, l = bytes32 v := by
  match l, h with
  | [a, b, c, d], _ => exact ⟨be32 a b c d, (bytes32_be32 a b c d).symm⟩

/-- What stands in a frame after its header's first four bytes is a sequence number and a payload. -/
theorem exists_eq_bytes32_append (l : List Byte) (h : 4 ≤ l.length) : ∃ v P, l = bytes32 v ++ P := by
  obtain ⟨v, hv⟩ := exists_eq_bytes32 (l.take 4) (by simpa using h)
  exact ⟨v, l.drop 4, by rw [← hv, List.take_append_drop]⟩

theorem set_ne_self {l : List Byte} (hk : k < l.length) (hd : l[k]? ≠ some d) : l.set k d ≠ l := by
  intro h
  exact hd (by rw [← h, List.getElem?_set_self hk])

theorem byteSum_set (l : List Byte) (k : Nat) (d : Byte) (hk : k < l.length) :
    byteSum (l.set k d) + l[k].toNat = byteSum l + d.toNat := by
  induction l generalizing k with
  | nil => simp at hk
  | cons b l ih =>
    cases k with
    | zero => simp only [List.set_cons_zero, byteSum_cons, List.getElem_cons_zero]; omega
    | succ k =>
      have := ih k (by simpa using hk)
      simp only [List.set_cons_succ, byteSum_cons, List.getElem_cons_succ]
      omega

/-- One byte replaced by another changes the sum modulo 256: two bytes differ by less than 256. -/
theorem byteSum_set_mod_ne {l : List Byte} (hk : k < l.length) (hd : l[k]? ≠ some d) :
    byteSum (l.set k d) % 256 ≠ byteSum l % 256 := by
  have hsum := byteSum_set l k d hk
  have hne : l[k].toNat ≠ d.toNat := fun h => hd (by rw [List.getElem?_eq_getElem hk, BitVec.eq_of_toNat_eq h])
  have hold := l[k].isLt
  have hnew := d.isLt
  omega

/-- A byte corrupted in the first field makes it another checksum field. -/
theorem frameOf_set_checksum (hk : k < 2) (hd : (frameOf c t seq P)[k]? ≠ some d) :
    ∃ c', c' ≠ c ∧ (frameOf c t seq P).set k d = frameOf c' t seq P := by
  obtain ⟨c', hc⟩ := exists_eq_bytes16 ((bytes16 c).set k d) (by simp)
  have hset : (frameOf c t seq P).set k d = frameOf c' t seq P := by
    simp only [frameOf, List.append_assoc]
    rw [List.set_append_left _ _ (by simpa using hk), hc]
  refine ⟨c', ?_, hset⟩
  rintro rfl
  exact set_ne_self (by rw [frameOf_length]; omega) hd hset

/-- A byte corrupted in the second field makes it another total length. -/
theorem frameOf_set_totalLength (hk : k = 2 ∨ k = 3) (hd : (frameOf c t seq P)[k]? ≠ some d) :
    ∃ t', t' ≠ t ∧ (frameOf c t seq P).set k d = frameOf c t' seq P := by
  obtain ⟨t', ht⟩ := exists_eq_bytes16 ((bytes16 t).set (k - 2) d) (by simp)
  have hset : (frameOf c t seq P).set k d = frameOf c t' seq P := by
    simp only [frameOf, List.append_assoc]
    rw [List.set_append_right _ _ (by rw [bytes16_length]; omega), bytes16_length,
      List.set_append_left _ _ (by rw [bytes16_length]; omega), ht]
  refine ⟨t', ?_, hset⟩
  rintro rfl
  exact set_ne_self (by rw [frameOf_length]; omega) hd hset

/-- A byte corrupted in the sequence number or in the payload makes them others with another checksum. -/
theorem frameOf_set_body (hk : 4 ≤ k) (hlt : k < 8 + P.length) (hd : (frameOf c t seq P)[k]? ≠ some d) :
    ∃ seq' P', P'.length = P.length ∧ checksum seq' P' ≠ checksum seq P ∧
      (frameOf c t seq P).set k d = frameOf c t seq' P' := by
  have hhead : (bytes16 c ++ bytes16 t).length ≤ k := hk
  have hbody : k - 4 < (bytes32 seq ++ P).length := by rw [List.length_append, bytes32_length]; omega
  obtain ⟨seq', P', hb⟩ := exists_eq_bytes32_append ((bytes32 seq ++ P).set (k - 4) d) (by simp)
  refine ⟨seq', P', ?_, fun h => ?_, ?_⟩
  · simpa using (congrArg List.length hb).symm
  · rw [frameOf, List.append_assoc, List.getElem?_append_right hhead] at hd
    apply byteSum_set_mod_ne hbody hd
    rw [hb, ← checksum_toNat_eq_byteSum, h, checksum_toNat_eq_byteSum]
  · rw [frameOf, frameOf, List.append_assoc _ (bytes32 seq), List.append_assoc _ (bytes32 seq'),
      List.set_append_right _ _ hhead, ← hb]
    rfl

/-- Settles O18: another checksum field or another sum fails the verdict, another total length fails the length check. -/
theorem singleByteCorruptionDetected : Obligations.SingleByteCorruptionDetected := by
  intro seq P k d hP hk hd
  rw [encodeFrame_eq_frameOf] at hd ⊢
  by_cases h2 : k < 2
  · obtain ⟨c, hc, hF⟩ := frameOf_set_checksum h2 hd
    rw [hF, decOp_frameOf_length c seq hP, if_neg (by omega)]
    exact ⟨Bool.eq_false_iff.mpr fun hv => hc (verify_iff.mp hv), rfl⟩
  by_cases h4 : 4 ≤ k
  · obtain ⟨seq', P', hlen, hsum, hF⟩ := frameOf_set_body h4 hk hd
    rw [hF, decOp_replaced_body seq seq' hP hlen, if_neg (by omega)]
    exact ⟨Bool.eq_false_iff.mpr fun hv => hsum (verify_zext16_iff.mp hv), rfl⟩
  · have h23 : k = 2 ∨ k = 3 := by omega
    obtain ⟨t, ht, hF⟩ := frameOf_set_totalLength h23 hd
    have hne : t.toNat ≠ 8 + P.length := fun h => ht (BitVec.eq_of_toNat_eq (by rw [h, totalLength_toNat hP]))
    rw [hF, decOp_of_error (by rw [decodeFrame_frameOf, if_neg hne]), if_pos h23]
    exact ⟨rfl, rfl⟩

/-! ### The operation level (R116, R120, R131, R154) -/

/-- Settles O20: CSUM, VFY and ENC compute to the fields listed, DEC in each case of what `decode` answers. -/
theorem operationLevelResults : Obligations.OperationLevelResults := by
  refine fun cfg seq k len B => ⟨rfl, rfl, rfl, ?_⟩
  change decOp B = _
  cases h : decodeFrame B with
  | ok p => exact decOp_of_ok h
  | error e =>
    rw [decOp_of_error h]
    cases e <;> rfl

end Sys2Proof.Machine
end

section
/-! PROOF. CSUM and VFY step by step: the one rule of their `T_IN` (R117), their results (R118, R119), and what they leave
unchanged (R43). -/

namespace Sys2Proof.Machine

variable {s t : State} {c : Command} {op : Op}

/-! ### What CSUM and VFY share (R117) -/

/-- CSUM and VFY have the same rule at a `T_IN`. -/
theorem inputOf_sum (hop : op = .csum ∨ op = .vfy) : inputOf op = sumIn := by
  rcases hop with rfl | rfl <;> rfl

/-- CSUM and VFY have no `T_OUT` (R117). -/
theorem outputOf_sum_ne_next (hop : op = .csum ∨ op = .vfy) : outputOf op s ≠ .next t := by
  rcases hop with rfl | rfl <;> exact noOut_ne_next (s := s)

theorem sumIn_consume (s : State) (d : Byte) (rest : List Byte) :
    (sumIn s d).consume d rest =
      { s with acc := s.acc + d, icnt := s.icnt + 1, inQ := rest, trace := s.trace ++ [.inp d] } := by
  rw [← accAdd_eq_add]
  rfl

section SumStep

variable (hop : c.op = .csum ∨ c.op = .vfy) (hb : s.busy = true)
include hop hb

/-- Everything a CSUM or VFY in progress can do: sum an input byte, or deliver its result. -/
theorem exec_sum_cases (h : exec c.toInstr s = .next t) :
    (∃ d rest, s.inQ = d :: rest ∧ t = (sumIn s d).consume d rest) ∨ t = s.deliver (resultOf c.op s) := by
  rw [exec_toInstr, inputOf_sum hop] at h
  rcases channelStep_cases h with ⟨hidle, -⟩ | ⟨-, -, -, hin⟩ | ⟨-, -, -, -, -, hout⟩ | ⟨-, -, -, -, -, -, hres⟩
  · simp [hb] at hidle
  · exact .inl hin
  · exact absurd hout (outputOf_sum_ne_next hop)
  · exact .inr hres

variable (hc : s.latched = c)
include hc

/-- With input left and a byte offered, a CSUM or VFY sums it and counts it (R117). -/
theorem exec_sum_input (hi : s.icnt.toNat < c.len.toNat) {d : Byte} {rest : List Byte} (hq : s.inQ = d :: rest) :
    exec c.toInstr s = .next
      { s with acc := s.acc + d, icnt := s.icnt + 1, inQ := rest, trace := s.trace ++ [.inp d] } := by
  subst hc
  have hdec : decPass s ≠ true := fun hp => by
    have hop' := ((decPass_iff s).mp hp).1
    simp [hop'] at hop
  have hin : enIn s = true := (enIn_iff s).mpr ⟨hb, hi, fun h => hdec h.1⟩
  rw [exec_toInstr, channelStep_in hb rfl hin d rest hq, inputOf_sum hop, sumIn_consume]

/-- With its input complete, a CSUM or VFY delivers its result (R118, R119). -/
theorem exec_sum_result (hi : s.icnt = c.len) (hf : s.holdFull = false) (hr : s.resReady = true) :
    exec c.toInstr s = .next (s.deliver (resultOf c.op s)) := by
  subst hc
  have henc : encOk s ≠ true := fun he => by
    have hop' := ((encOk_iff s).mp he).1
    simp [hop'] at hop
  have hres : enRes s = true := (enRes_iff s).mpr ⟨hb, hi, hf, fun he => absurd he henc⟩
  have hout : enOut s = false := by simp [enOut, henc, hf]
  rw [exec_toInstr, channelStep_res hb rfl (enIn_eq_false_of_icnt hi) hout hres hr]

end SumStep

/-- Settles O24: CSUM and VFY are the two operations that sum their input. -/
theorem csumVfyInputStep : Obligations.CsumVfyInputStep := fun seq k len _ _ _ hb hi hq =>
  ⟨fun hc => exec_sum_input (c := ⟨.csum, seq, k, len⟩) (.inl rfl) hb hc hi hq,
    fun hc => exec_sum_input (c := ⟨.vfy, seq, k, len⟩) (.inr rfl) hb hc hi hq⟩

/-! ### The results (R118, R119) -/

theorem zext16_eq_ofNat (a : Byte) : zext16 a = BitVec.ofNat 16 a.toNat :=
  (BitVec.ofNat_toNat 16 a).symm

theorem vfyOk_eq (s : State) : vfyOk s = decide (s.acc.toNat = s.rCsum.toNat) := by
  rw [Bool.eq_iff_iff, decide_eq_true_eq, vfyOk, beq_iff_eq, ← BitVec.toNat_inj, zext16_toNat]

/-- Settles O25: with the input complete the result is CSUM's, of the latched sequence number and length. -/
theorem csumCompletes : Obligations.CsumCompletes := by
  intro seq k len s hb hc hi hf hr
  have h := exec_sum_result (c := ⟨.csum, seq, k, len⟩) (.inl rfl) hb hc hi hf hr
  obtain ⟨-, rfl, rfl, rfl⟩ := Command.mk.inj hc
  rw [← zext16_eq_ofNat]
  exact h

/-- Settles O26: with the input complete the result is VFY's, its verdict on the latched operand. -/
theorem vfyCompletes : Obligations.VfyCompletes := by
  intro seq k len s hb hc hi hf hr
  have h := exec_sum_result (c := ⟨.vfy, seq, k, len⟩) (.inr rfl) hb hc hi hf hr
  obtain ⟨-, rfl, rfl, rfl⟩ := Command.mk.inj hc
  rw [← zext16_eq_ofNat, ← vfyOk_eq]
  exact h

/-! ### The frame (R43, R117) -/

/-- Settles O35: the two transfers of a CSUM or VFY in progress write neither `buf` nor any other register. -/
theorem csumVfyFrame : Obligations.CsumVfyFrame := by
  intro i c s t hi hop hb ht
  obtain rfl := exec_of_command i c hi
  rcases exec_sum_cases hop hb ht with ⟨d, rest, -, rfl⟩ | rfl
  · simp [sumIn]
  · simp

end Sys2Proof.Machine
end

section
/-! PROOF. The functions of the serialiser (R130, R137): the frame by memory writes, and what a frame says of the sequence
number and the payload it was made of. -/

namespace Sys2Proof.Machine

variable {P : List Byte}

/-! ### The frame by memory writes (R60, R130) -/

/-- A byte with the value of the bits from `i` on is the byte they hold. -/
theorem extract_byte_eq {w i : Nat} {x : BitVec w} {b : Byte} (h : b.toNat = x.toNat / 2 ^ i % 256) :
    x.extractLsb' i 8 = b :=
  BitVec.eq_of_toNat_eq ((extract_byte_toNat x i).trans h.symm)

theorem beBytes_two (v : Nat) : beBytes 2 v = bytes16 (BitVec.ofNat 16 v) := by
  simp only [beBytes, bytes16, List.cons.injEq, and_true]
  refine ⟨?_, ?_⟩ <;> exact (extract_byte_eq (by simp only [BitVec.toNat_ofNat]; omega)).symm

theorem beBytes_four (v : Nat) : beBytes 4 v = bytes32 (BitVec.ofNat 32 v) := by
  simp only [beBytes, bytes32, List.cons.injEq, and_true]
  refine ⟨?_, ?_, ?_, ?_⟩ <;> exact (extract_byte_eq (by simp only [BitVec.toNat_ofNat]; omega)).symm

theorem beBytes_one (b : Byte) : beBytes 1 b.toNat = [b] := by
  simp [beBytes]

/-- A write inside a frame replaces the bytes that stand there. -/
theorem memWrite_append (A X R : List Byte) (v : Nat) :
    memWrite (A ++ X ++ R) A.length X.length v = some (A ++ beBytes X.length v ++ R) := by
  simp [memWrite]

theorem memWrite_frameOf_checksum (c t : Half) (q : Seq) (R : List Byte) (v : Nat) :
    memWrite (frameOf c t q R) 0 2 v = some (frameOf (BitVec.ofNat 16 v) t q R) := by
  have h := memWrite_append [] (bytes16 c) (bytes16 t ++ bytes32 q ++ R) v
  rw [bytes16_length, beBytes_two] at h
  exact h

theorem memWrite_frameOf_totalLength (c t : Half) (q : Seq) (R : List Byte) (v : Nat) :
    memWrite (frameOf c t q R) 2 2 v = some (frameOf c (BitVec.ofNat 16 v) q R) := by
  have h := memWrite_append (bytes16 c) (bytes16 t) (bytes32 q ++ R) v
  rw [bytes16_length, bytes16_length, beBytes_two] at h
  exact h

theorem memWrite_frameOf_sequenceNumber (c t : Half) (q : Seq) (R : List Byte) (v : Nat) :
    memWrite (frameOf c t q R) 4 4 v = some (frameOf c t (BitVec.ofNat 32 v) R) := by
  have h := memWrite_append (bytes16 c ++ bytes16 t) (bytes32 q) R v
  rw [bytes32_length, beBytes_four] at h
  exact h

/-- Written byte by byte from offset `8 + i` on, the payload replaces as many bytes of the frame (R130). -/
theorem foldlM_memWrite_payload (A R : List Byte) (i : Nat) (hA : A.length = 8 + i) (hR : R.length = P.length) :
    (P.zipIdx i).foldlM (fun G x => memWrite G (8 + x.2) 1 x.1.toNat) (A ++ R) = some (A ++ P) := by
  induction P generalizing A R i with
  | nil => simp [List.length_eq_zero_iff.mp hR]
  | cons b P ih =>
    cases R with
    | nil => simp at hR
    | cons r R =>
      have hwrite : memWrite (A ++ r :: R) (8 + i) 1 b.toNat = some (A ++ b :: R) := by
        simpa only [List.length_singleton, beBytes_one, hA, List.append_assoc, List.singleton_append] using
          memWrite_append A [r] R b.toNat
      have hnext := ih (A ++ [b]) R (i + 1) (by simp [hA, Nat.add_assoc]) (by simpa using hR)
      simp only [List.zipIdx_cons, List.foldlM_cons, hwrite, Option.bind_eq_bind, Option.bind_some]
      simpa only [List.append_assoc, List.singleton_append] using hnext

/-- Any eight bytes or more are a frame of some fields and a payload. -/
theorem exists_eq_frameOf (F : List Byte) (h : 8 ≤ F.length) : ∃ c t q R, F = frameOf c t q R := by
  obtain ⟨a, b, c, d, e, f, g, k, R, rfl⟩ := exists_header_of_le_length F h
  exact ⟨be16 a b, be16 c d, be32 e f g k, R, by rw [frameOf, bytes16_be16, bytes16_be16, bytes32_be32]; rfl⟩

/-- Settles O11: the writes replace the four parts of the frame one after the other, whatever stood there. -/
theorem encodeFrameByMemoryWrites : Obligations.EncodeFrameByMemoryWrites := by
  intro seq P F _ hF
  refine ⟨rfl, ?_⟩
  obtain ⟨c, t, q, R, rfl⟩ := exists_eq_frameOf F (by omega)
  have hR : R.length = P.length := by rw [frameOf_length] at hF; omega
  have hpayload := foldlM_memWrite_payload ((encodeFrame seq P).take 8) R 0 rfl hR
  simp only [memWrite_frameOf_checksum, memWrite_frameOf_totalLength, memWrite_frameOf_sequenceNumber,
    Option.bind_eq_bind, Option.bind_some, BitVec.ofNat_toNat, BitVec.setWidth_eq]
  exact hpayload

/-! ### What a frame says (R137) -/

/-- Settles O16: bytes 4 to 7 spell the sequence number and bytes 8 onward are the payload. -/
theorem encodeFrameInjective : Obligations.EncodeFrameInjective := by
  intro q q' P P' h
  have hseq : bytes32 q = bytes32 q' := congrArg (fun F => (F.drop 4).take 4) h
  refine ⟨BitVec.eq_of_toNat_eq ?_, congrArg (List.drop 8) h⟩
  rw [← beNat_bytes32, hseq, beNat_bytes32]

end Sys2Proof.Machine
end

section
/-! PROOF. ENC step by step: the rule of its `T_IN` (R134), the byte of its `T_OUT` (R135), its results (R136), and what it
leaves unchanged (R43). -/

namespace Sys2Proof.Machine

variable {s t : State} {seq : Seq} {k len : Half}

/-! ### The predicates of an ENC -/

theorem exec_enc (seq : Seq) (k len : Half) (s : State) :
    exec (.enc seq k len) s = channelStep ⟨.enc, seq, k, len⟩ encIn encOut encRes s := rfl

/-- An ENC is accepted when its length is at most `PAYLOAD_MAX` (R38). -/
theorem encOk_of_enc (hop : s.rOp = .enc) : encOk s = decide (s.rLen.toNat ≤ s.cfg.payloadMax.val) := by
  rw [Bool.eq_iff_iff, encOk_iff, decide_eq_true_eq]
  exact and_iff_right hop

theorem decPass_of_enc (hop : s.rOp = .enc) : decPass s = false := by
  simp [decPass, hop]

/-- The total length is the 16-bit sum (R136). -/
theorem encTotal_eq (s : State) : encTotal s = 8 + s.rLen :=
  BitVec.eq_of_toNat_eq (by simp [encTotal, BitVec.toNat_add])

/-! ### `T_IN` (R134) -/

/-- An accepted ENC writes the byte to `buf`, sums it and counts it. -/
theorem encIn_accepted_consume (he : encOk s = true) (d : Byte) (rest : List Byte) :
    (encIn s d).consume d rest =
      { s with buf := Memory.write s.buf s.icnt.toNat d, acc := s.acc + d, icnt := s.icnt + 1, inQ := rest
               trace := s.trace ++ [.inp d] } := by
  rw [encIn_accepted s d he, ← accAdd_eq_add]
  rfl

/-- Settles O27: an ENC with input left has its `T_IN` enabled, and `enc_ok` decides what it does. -/
theorem encInputStep : Obligations.EncInputStep := by
  intro seq k len s d rest hb hc hi hq
  obtain ⟨hop, rfl, rfl, rfl⟩ := Command.mk.inj hc
  have hin : enIn s = true := (enIn_iff s).mpr ⟨hb, hi, by simp [decPass_of_enc hop]⟩
  rw [exec_enc, channelStep_in hb hc hin d rest hq]
  split
  · next hmax =>
    rw [encIn_accepted_consume (by simpa [encOk_of_enc hop] using hmax)]
  · next hmax =>
    rw [encIn_refused s d (by simpa [encOk_of_enc hop] using hmax)]
    rfl

/-! ### `T_OUT` (R135) -/

/-- The total length of an accepted ENC is exact (R135). -/
theorem encTotal_toNat (he : encOk s = true) : (encTotal s).toNat = 8 + s.rLen.toNat := by
  have hmax := ((encOk_iff s).mp he).2
  have hcfg : s.payloadMax < 65528 := s.cfg.payloadMax.isLt
  rw [encTotal, BitVec.toNat_ofNat]
  omega

/-- Settles O28: the value stated for `ocnt` is that of the byte `encByte` selects; the total length fits its 16 bits since
`PAYLOAD_MAX` is at most 65527 (R9). -/
theorem encOutputStep : Obligations.EncOutputStep := by
  intro seq k len s b hb hc hmax hi ho hr hbyte
  obtain ⟨hop, rfl, rfl, rfl⟩ := Command.mk.inj hc
  have he : encOk s = true := (encOk_iff s).mpr ⟨hop, hmax⟩
  have hsel : encByte s = some b := by
    have ht := encTotal_toNat he
    have htlt := (encTotal s).isLt
    have hseq := s.rSeq.isLt
    unfold encByte
    generalize s.ocnt.toNat = n at hbyte ho ⊢
    match n, hbyte, ho with
    | 0, hbyte, _ => exact congrArg some hbyte.symm
    | 1, hbyte, _ => exact congrArg some hbyte.symm
    | 2, hbyte, _ => exact congrArg some (extract_byte_eq (by omega))
    | 3, hbyte, _ => exact congrArg some (extract_byte_eq (by omega))
    | 4, hbyte, _ => exact congrArg some (extract_byte_eq (by omega))
    | 5, hbyte, _ => exact congrArg some (extract_byte_eq hbyte)
    | 6, hbyte, _ => exact congrArg some (extract_byte_eq hbyte)
    | 7, hbyte, _ => exact congrArg some (extract_byte_eq (by omega))
    | j + 8, hbyte, ho => exact (bufRead_some s j b).mpr ⟨by rw [hi]; omega, hbyte⟩
  have hout : enOut s = true := (enOut_iff s).mpr ⟨hb, .inl ⟨he, hi, ho⟩⟩
  rw [exec_enc, channelStep_out hb hc (enIn_eq_false_of_icnt hi) hout hr, encOut_eq_next he hi ho hsel]
  rfl

/-! ### `T_RES` (R136) -/

/-- With its input complete and, when accepted, its frame emitted, an ENC delivers its result. -/
theorem exec_enc_result (hb : s.busy = true) (hc : s.latched = ⟨.enc, seq, k, len⟩) (hi : s.icnt = s.rLen)
    (hf : s.holdFull = false) (hr : s.resReady = true) (ho : encOk s = true → s.ocnt.toNat = 8 + s.rLen.toNat) :
    exec (.enc seq k len) s = .next (s.deliver (encRes s)) := by
  have hres : enRes s = true := (enRes_iff s).mpr ⟨hb, hi, hf, ho⟩
  have hout : enOut s = false := by
    rcases enabled_of_complete hb hi hf fun he => (ho he).le with ⟨-, hres'⟩ | ⟨hout, -⟩
    · simp [hres] at hres'
    · exact hout
  rw [exec_enc, channelStep_res hb hc (enIn_eq_false_of_icnt hi) hout hres hr]

/-- Settles O29: `enc_ok` decides which result is delivered. -/
theorem encCompletes : Obligations.EncCompletes := by
  intro seq k len s hb hc hi hf hr
  obtain ⟨hop, rfl, rfl, rfl⟩ := Command.mk.inj hc
  refine ⟨fun hmax ho => ?_, fun hmax => ?_⟩
  · have he : encOk s = true := (encOk_iff s).mpr ⟨hop, hmax⟩
    rw [exec_enc_result hb hc hi hf hr fun _ => ho, encRes_accepted s he, encTotal_eq, zext16_eq_ofNat]
    rfl
  · have he : encOk s = false := by simpa [encOk_of_enc hop] using hmax
    rw [exec_enc_result hb hc hi hf hr (by simp [he]), encRes_refused s he]
    rfl

/-! ### The frame (R43) -/

/-- Settles O36: of the three transfers of a busy ENC only the `T_IN` of an accepted one stores, and it does so at `icnt`. -/
theorem encFrame : Obligations.EncFrame := by
  intro seq k len s t hb ht
  rw [exec_enc] at ht
  rcases channelStep_cases ht with
    ⟨hidle, -⟩ | ⟨-, -, hin, d, rest, -, rfl⟩ | ⟨-, -, -, -, -, hout⟩ | ⟨-, -, -, -, -, -, rfl⟩
  · simp [hb] at hidle
  · cases he : encOk s with
    | true =>
      rw [encIn_accepted_consume he]
      exact ⟨by simp, fun a ha => Memory.read_write_other _ _ _ _ ha, fun h => absurd ⟨hin, rfl⟩ h⟩
    | false => simp [encIn_refused s d he]
  · obtain ⟨-, -, -, b, -, rfl⟩ := encOut_cases hout
    simp
  · simp

end Sys2Proof.Machine
end

section
/-! PROOF. The properties of ENC together (R137): the latched command of a run as a function of its transfers, and with it
the OUT bytes of every run. -/

namespace Sys2Proof.Machine

variable {s t : State} {x : Transfer} {P : List Byte}

/-! ### The latched command of a run (R30, R41, R47) -/

/-- The latched command after a transfer: a `T_CMD` loads it, a `T_RST` clears it, any other transfer keeps it. -/
def latchedAfter (c : Command) : Transfer → Command
  | .cmd c' => c'
  | .rst => ⟨.enc, 0, 0, 0⟩
  | .inp _ => c
  | .out _ _ => c
  | .res _ => c

theorem StepTransfer.latched (h : StepTransfer s t x) : t.latched = latchedAfter s.latched x := by
  cases h with
  | rst => rfl
  | cmd => rfl
  | inp => simp [latchedAfter]
  | encOut => simp [latchedAfter]
  | decOut => simp [latchedAfter]
  | res => simp [latchedAfter]

/-- An open run leaves the latched command that its transfers leave. -/
theorem runEvents_latched (es : List RunEvent) (s : State) (h : runEvents es s = .next t) :
    ∃ ts, t.trace = s.trace ++ ts ∧ t.latched = ts.foldl latchedAfter s.latched := by
  induction es generalizing s with
  | nil =>
    obtain rfl : s = t := by simpa using h
    exact ⟨[], by simp, rfl⟩
  | cons e es ih =>
    cases e with
    | host m => simpa using ih (hostMove m s) h
    | step =>
      cases hs : step s with
      | fault f => simp [runEvents, hs] at h
      | refused r => simp [runEvents, hs] at h
      | next u =>
        rw [runEvents_step _ _ _ hs] at h
        obtain ⟨x, hx⟩ := exists_stepTransfer hs
        obtain ⟨ts, htrace, hlatched⟩ := ih u h
        exact ⟨x :: ts, by simp [htrace, hx.trace], by rw [hlatched, hx.latched, List.foldl_cons]⟩

/-- The transfers of an operation leave its command latched. -/
theorem foldl_latchedAfter_operation (cfg : Config) (c c' : Command) (B : List Byte) :
    (operationTransfers cfg c B).foldl latchedAfter c' = c := by
  rw [operationTransfers, List.foldl_append, List.foldl_append]
  change (dataTransfers cfg c B).foldl latchedAfter c = c
  rcases dataTransfers_shape cfg c B with hD | ⟨H, -, hD⟩
  · simp [hD, List.foldl_map, latchedAfter]
  · simp [hD, List.foldl_map, List.foldl_flatMap, latchedAfter]

/-! ### The four properties -/

theorem encOp_accepted {max : Nat} (seq : Seq) (h : P.length ≤ max) : (encOp max seq P).1 = encodeFrame seq P := by
  rw [encOp, if_neg (Nat.not_lt.mpr h)]

/-- Settles O60: (a) to (c) are properties of `encode`; for (d) the transfers made are those of the operation, which carry the
frame and leave the command's sequence number latched. -/
theorem encProperties : Obligations.EncProperties := by
  refine ⟨fun seq P cfg => ?_, fun seq P hP => ?_, fun seq seq' P P' => ?_, ?_⟩
  · rw [encodeFrame_length]
    exact ⟨rfl, fun h => ⟨Nat.le_add_right 8 _, Nat.add_le_add_left h 8⟩⟩
  · exact ⟨_, decodeFrame_frameOf_length _ seq hP, rfl, totalLength_toNat hP, rfl⟩
  · exact ⟨encodeFrameInjective seq seq' P P', rfl, rfl⟩
  · intro seq k len P more rest q s t es hfeeds hmax hrun hn
    obtain ⟨htrace, -⟩ := transferLevelRefinesOperationLevel _ P more rest q s t es hfeeds hrun hn.le
    rw [hn, List.take_length] at htrace
    obtain ⟨ts, hts, hlatched⟩ := runEvents_latched es s hrun
    obtain rfl := List.append_cancel_left (hts.symm.trans htrace)
    rw [foldl_latchedAfter_operation] at hlatched
    have hseq : t.rSeq = seq := congrArg Command.seq hlatched
    refine ⟨_, htrace, ?_⟩
    obtain ⟨-, hout, -⟩ := words_of_operation s.cfg ⟨.enc, seq, k, len⟩ P
    rw [hout, markLast_bytes, hseq]
    exact encOp_accepted seq (hfeeds.length.trans_le hmax)

end Sys2Proof.Machine
end

section
/-! PROOF. `decode` (R150 to R152, R162): the three answers, each on its own condition, and a decoded packet as the frame of
its own fields. -/

namespace Sys2Proof.Machine

variable {B : List Byte} {p : Packet}

/-- Settles O12: the three cases of `decode` exclude one another, and each answers for its condition alone. -/
theorem decodeFailsExactlyOnLength : Obligations.DecodeFailsExactlyOnLength := by
  intro B
  rcases decodeFrame_cases B with ⟨hlen, h⟩ | ⟨hlen, hfield, h⟩ | ⟨hlen, hfield, p, h⟩
  · simp [h, hlen]
  · simp [h, hlen, hfield]
  · simp [h, hlen, hfield]

/-! ### The fields of a frame (R60, R80) -/

/-- A read of the bytes between two parts of a frame. -/
theorem memRead_append (A X R : List Byte) : memRead (A ++ X ++ R) A.length X.length = some (beNat X) := by
  simp [memRead]

theorem memRead_frameOf_checksum (c t : Half) (q : Seq) (P : List Byte) :
    memRead (frameOf c t q P) 0 2 = some c.toNat := by
  rw [← beNat_bytes16]
  exact memRead_append [] (bytes16 c) (bytes16 t ++ bytes32 q ++ P)

theorem memRead_frameOf_totalLength (c t : Half) (q : Seq) (P : List Byte) :
    memRead (frameOf c t q P) 2 2 = some t.toNat := by
  rw [← beNat_bytes16]
  exact memRead_append (bytes16 c) (bytes16 t) (bytes32 q ++ P)

theorem memRead_frameOf_sequenceNumber (c t : Half) (q : Seq) (P : List Byte) :
    memRead (frameOf c t q P) 4 4 = some q.toNat := by
  rw [← beNat_bytes32]
  exact memRead_append (bytes16 c ++ bytes16 t) (bytes32 q) P

/-! ### What a successful `decode` says (R150, R162(b), (c)) -/

/-- A decoded byte string is the frame of the packet's fields, with the packet's total length. -/
theorem eq_frameOf_of_decodeFrame (h : decodeFrame B = .ok p) :
    B = frameOf p.checksum p.totalLength p.sequenceNumber p.payload ∧ p.totalLength.toNat = 8 + p.payload.length := by
  obtain ⟨a, b, c, d, e, f, g, k, hB, hcsum, htotal, hseq, hlen⟩ := decodeFrame_ok B p h
  refine ⟨?_, by rw [htotal, be16_toNat, hlen]⟩
  rw [frameOf, hcsum, htotal, hseq, bytes16_be16, bytes16_be16, bytes32_be32]
  exact hB

/-- Settles O13: the fields are read off the frame that they make up. -/
theorem decodeLosesNothing : Obligations.DecodeLosesNothing := by
  intro B p h
  obtain ⟨rfl, hlen⟩ := eq_frameOf_of_decodeFrame h
  exact ⟨memRead_frameOf_checksum .., memRead_frameOf_totalLength .., memRead_frameOf_sequenceNumber .., rfl, rfl, hlen⟩

/-- Settles O15: the verified checksum field and the checked total length are those that `encode` writes. -/
theorem encodeOfVerifiedDecode : Obligations.EncodeOfVerifiedDecode := by
  intro B p h hv
  obtain ⟨hB, hlen⟩ := eq_frameOf_of_decodeFrame h
  have htotal : BitVec.ofNat 16 (8 + p.payload.length) = p.totalLength := by
    rw [← hlen, BitVec.ofNat_toNat, BitVec.setWidth_eq]
  rw [encodeFrame_eq_frameOf, ← verify_iff.mp hv, htotal]
  exact hB.symm

end Sys2Proof.Machine
end

section
/-! PROOF. DEC step by step: where the byte of its `T_IN` goes (R158), the byte of its `T_OUT` (R159), its results (R160),
and what it leaves unchanged (R43). -/

namespace Sys2Proof.Machine

variable {s t : State} {seq : Seq} {k len : Half}

theorem exec_dec (seq : Seq) (k len : Half) (s : State) :
    exec (.dec seq k len) s = channelStep ⟨.dec, seq, k, len⟩ decIn decOut decRes s := rfl

/-- The declared length is compared as a number (R151). -/
theorem declared_eq_iff (s : State) : declared s = s.rLen ↔ s.hdr[2].toNat * 256 + s.hdr[3].toNat = s.rLen.toNat := by
  rw [declared, ← BitVec.toNat_inj, be16_toNat]

/-! ### `T_IN` (R158) -/

/-- A header byte goes to `hdr[icnt]`, and from byte 4 on into the sum. -/
theorem decIn_header_eq (hlen : 8 ≤ s.rLen.toNat) (hi : s.icnt.toNat < 8) (d : Byte) :
    decIn s d = { s with
      hdr := s.hdr.setIfInBounds s.icnt.toNat d, acc := if 4 ≤ s.icnt.toNat then s.acc + d else s.acc } := by
  split
  · next h4 =>
    rw [decIn_header_high s d hlen h4 hi, ← accAdd_eq_add]
    rfl
  · next h4 =>
    rw [decIn_header_low s d hlen (Nat.not_le.mp h4)]
    rfl

/-- Everything the rule of DEC's `T_IN` can write: a byte of `hdr` and `acc`, `hold` and `acc`, or nothing. -/
theorem decIn_cases (s : State) (d : Byte) :
    (∃ a, decIn s d = { s.writeHdr d with acc := a }) ∨ decIn s d = (s.fillHold d).addAcc d ∨ decIn s d = s := by
  by_cases hlen : 8 ≤ s.rLen.toNat
  · by_cases hi : s.icnt.toNat < 8
    · exact .inl (decIn_header s d hlen hi)
    · by_cases hd : declared s = s.rLen
      · exact .inr (.inl (decIn_payload s d hlen (Nat.not_lt.mp hi) hd))
      · exact .inr (.inr (decIn_mismatch s d hlen (Nat.not_lt.mp hi) hd))
  · exact .inr (.inr (decIn_short s d (Nat.not_le.mp hlen)))

/-- Settles O30: the position of the byte and the declared length select the case of the rule. -/
theorem decInputStep : Obligations.DecInputStep := by
  intro seq k len s d rest hb hc hi hfree hq
  obtain ⟨-, rfl, rfl, rfl⟩ := Command.mk.inj hc
  rw [exec_dec, channelStep_in hb hc ((enIn_iff s).mpr ⟨hb, hi, hfree⟩) d rest hq]
  by_cases hlen : 8 ≤ s.rLen.toNat
  · by_cases h8 : s.icnt.toNat < 8
    · rw [decIn_header_eq hlen h8, if_pos hlen, if_pos h8]
      rfl
    · rw [if_pos hlen, if_neg h8]
      by_cases hd : declared s = s.rLen
      · rw [decIn_payload s d hlen (Nat.not_lt.mp h8) hd, if_pos ((declared_eq_iff s).mp hd), ← accAdd_eq_add]
        rfl
      · rw [decIn_mismatch s d hlen (Nat.not_lt.mp h8) hd, if_neg (mt (declared_eq_iff s).mpr hd)]
        rfl
  · rw [decIn_short s d (Nat.not_le.mp hlen), if_neg hlen]
    rfl

/-! ### `T_OUT` (R159) -/

/-- A byte in `hold` is a payload byte, so that `r_len - 9` does not underflow (R159). -/
theorem Inv.nine_le_rLen (h : Inv s) (hb : s.busy = true) (hf : s.holdFull = true) : 9 ≤ s.rLen.toNat := by
  have hi := h.icnt_of_holdFull hb hf
  have hle := h.icntLe hb
  omega

/-- Settles O31: a full `hold` enables `T_OUT` alone, and under the invariant the frame has a payload byte. -/
theorem decOutputStep : Obligations.DecOutputStep := by
  intro seq k len s h hb hc hf hr
  obtain ⟨-, rfl, rfl, rfl⟩ := Command.mk.inj hc
  have hnine := h.nine_le_rLen hb hf
  have hlast : decLast s = decide (s.ocnt.toNat = s.rLen.toNat - 9) := by
    rw [decLast, decide_eq_decide]
    omega
  obtain ⟨hin, hout, -⟩ := enabled_of_holdFull hb (h.holdPass hb hf) hf
  rw [exec_dec, channelStep_out hb hc hin hout hr, decOut, hlast]
  exact ⟨hnine, rfl⟩

/-! ### `T_RES` (R160) -/

/-- The checksum field is compared with the sum as a number (R160). -/
theorem decOk_eq (s : State) : decOk s = decide (s.hdr[0].toNat * 256 + s.hdr[1].toNat = s.acc.toNat) := by
  rw [Bool.eq_iff_iff, decide_eq_true_eq, decOk, beq_iff_eq, ← BitVec.toNat_inj, zext16_toNat, hdrCsum, be16_toNat]

/-- With its input complete and `hold` empty, a DEC delivers its result. -/
theorem exec_dec_result (hb : s.busy = true) (hc : s.latched = ⟨.dec, seq, k, len⟩) (hi : s.icnt = s.rLen)
    (hf : s.holdFull = false) (hr : s.resReady = true) :
    exec (.dec seq k len) s = .next (s.deliver (decRes s)) := by
  have hop : s.rOp = .dec := congrArg Command.op hc
  have henc : encOk s = false := by simp [encOk, hop]
  have hres : enRes s = true := (enRes_iff s).mpr ⟨hb, hi, hf, by simp [henc]⟩
  have hout : enOut s = false := by simp [enOut, henc, hf]
  rw [exec_dec, channelStep_res hb hc (enIn_eq_false_of_icnt hi) hout hres hr]

/-- Settles O32: the length of the frame and the declared length select the result. -/
theorem decCompletes : Obligations.DecCompletes := by
  intro seq k len s hb hc hi hf hr
  obtain ⟨-, rfl, rfl, rfl⟩ := Command.mk.inj hc
  rw [exec_dec_result hb hc hi hf hr]
  by_cases hlen : s.rLen.toNat < 8
  · rw [decRes_short s hlen, if_pos hlen]
    rfl
  · rw [if_neg hlen]
    by_cases hd : declared s = s.rLen
    · rw [decRes_ok s (Nat.not_lt.mp hlen) hd, if_neg (not_not.mpr ((declared_eq_iff s).mp hd)), decOk_eq, hd]
      rfl
    · rw [decRes_length s (Nat.not_lt.mp hlen) hd, if_pos (mt (declared_eq_iff s).mpr hd)]
      rfl

/-! ### The frame (R43) -/

/-- Settles O37: of the three transfers of a busy DEC only the `T_IN` writes `hdr`, at `icnt`, and none writes `buf`. -/
theorem decFrame : Obligations.DecFrame := by
  intro seq k len s t hb ht
  rw [exec_dec] at ht
  rcases channelStep_cases ht with
    ⟨hidle, -⟩ | ⟨-, -, hin, d, rest, -, rfl⟩ | ⟨-, -, -, -, -, hout⟩ | ⟨-, -, -, -, -, -, rfl⟩
  · simp [hb] at hidle
  · rcases decIn_cases s d with ⟨a, h⟩ | h | h
    · have hhdr : ∀ j, (hj : j < 8) → j ≠ s.icnt.toNat → (s.writeHdr d).hdr[j] = s.hdr[j] :=
        fun _ hj hne => Vector.getElem_setIfInBounds_ne hj hne.symm
      simpa [h, hin] using hhdr
    · simp [h, hin]
    · simp [h, hin]
  · obtain rfl := decOut_cases hout
    simp
  · simp

end Sys2Proof.Machine
end

section
/-! PROOF. Errors are result values (R180): each comes from its own cause (R181, R186), and its result holds nothing but the
operation and the status (R184). -/

namespace Sys2Proof.Machine

variable {cfg : Config} {c : Command} {B : List Byte} {e : OpError}

theorem errorStatus_inj {e e' : OpError} : errorStatus e = errorStatus e' ↔ e = e' := by
  cases e <;> cases e' <;> simp [errorStatus]

theorem errorStatus_ne_ok (e : OpError) : errorStatus e ≠ .ok := raiseError_status .enc e

/-! ### The operation level (R181, R186) -/

/-- The cause of each error (R181), of an operation given `cmd.len` bytes. -/
def ErrorCause (cfg : Config) (c : Command) (B : List Byte) : OpError → Prop
  | .short => c.op = .dec ∧ c.len.toNat < 8
  | .length => c.op = .dec ∧ 8 ≤ c.len.toNat ∧ memRead B 2 2 ≠ some c.len.toNat
  | .payload => c.op = .enc ∧ cfg.payloadMax.val < c.len.toNat

/-- A cause makes the operation fail, without output. -/
theorem operation_of_errorCause (hB : B.length = c.len.toNat) (h : ErrorCause cfg c B e) :
    operation cfg c B = ([], raiseError c.op e) := by
  obtain ⟨hshort, hlength, -⟩ := decodeFailsExactlyOnLength B
  cases e with
  | short =>
    obtain ⟨hop, hlen⟩ := h
    simp only [operation, hop]
    exact decOp_of_error (hshort.mpr (hB ▸ hlen))
  | length =>
    obtain ⟨hop, hlen, hfield⟩ := h
    simp only [operation, hop]
    exact decOp_of_error (hlength.mpr (hB ▸ ⟨hlen, hfield⟩))
  | payload =>
    obtain ⟨hop, hlen⟩ := h
    simp only [operation, hop]
    exact if_pos (hB ▸ hlen)

/-- Without a cause the operation succeeds. -/
theorem operation_ok_or_errorCause (hB : B.length = c.len.toNat) :
    (operation cfg c B).2.status = .ok ∨ ∃ e, ErrorCause cfg c B e := by
  cases hop : c.op with
  | csum => simp [operation, hop, csumOp]
  | vfy => simp [operation, hop, vfyOp]
  | enc =>
    by_cases hlen : cfg.payloadMax.val < c.len.toNat
    · exact .inr ⟨.payload, hop, hlen⟩
    · simp [operation, hop, encOp, hB, hlen]
  | dec =>
    rcases decodeFrame_cases B with ⟨hlen, -⟩ | ⟨hlen, hfield, -⟩ | ⟨-, -, p, h⟩
    · exact .inr ⟨.short, hop, hB ▸ hlen⟩
    · exact .inr ⟨.length, hop, hB ▸ hlen, hB ▸ hfield⟩
    · simp [operation, hop, decOp_of_ok h]

theorem operation_status_iff (hB : B.length = c.len.toNat) :
    (operation cfg c B).2.status = errorStatus e ↔ ErrorCause cfg c B e := by
  refine ⟨fun h => ?_, fun h => congrArg (·.2.status) (operation_of_errorCause hB h)⟩
  rcases operation_ok_or_errorCause (cfg := cfg) hB with hok | ⟨e', he'⟩
  · exact absurd (h.symm.trans hok) (errorStatus_ne_ok e)
  · rw [operation_of_errorCause hB he'] at h
    exact errorStatus_inj.mp h ▸ he'

/-- Settles O21: an operation fails with an error exactly when it has that error's cause, and then answers the error alone. -/
theorem errorStatusCauses : Obligations.ErrorStatusCauses := by
  intro cfg c B hB
  refine ⟨operation_status_iff (e := .short) hB, operation_status_iff (e := .length) hB,
    operation_status_iff (e := .payload) hB, fun hne => ?_⟩
  obtain ⟨e, he⟩ := (operation_ok_or_errorCause hB).resolve_left hne
  rw [operation_of_errorCause hB he]
  rfl

/-! ### The transfer level (R184) -/

/-- The result of an operation is that of its success or that of its error. -/
theorem resultOf_ok_or_error (op : Op) (s : State) :
    (resultOf op s).status = .ok ∨ ∃ e, resultOf op s = raiseError op e := by
  cases op with
  | csum => exact .inl rfl
  | vfy => exact .inl rfl
  | enc =>
    cases he : encOk s with
    | true => exact .inl (congrArg (·.status) (encRes_accepted s he))
    | false => exact .inr ⟨.payload, encRes_refused s he⟩
  | dec =>
    by_cases hlen : s.rLen.toNat < 8
    · exact .inr ⟨.short, decRes_short s hlen⟩
    · by_cases hd : declared s = s.rLen
      · exact .inl (congrArg (·.status) (decRes_ok s (Nat.not_lt.mp hlen) hd))
      · exact .inr ⟨.length, decRes_length s (Nat.not_lt.mp hlen) hd⟩

/-- Settles O46: a step that makes a `T_RES` carries the result of the operation in progress, and an error's result is 0 but
for its operation and status. -/
theorem errorResultsAreZero : Obligations.ErrorResultsAreZero := by
  intro s t r h ht
  cases stepTransfer_of_trace h ht with
  | res _ _ _ =>
    refine ⟨resultOf_op s.rOp s, fun hne => ?_⟩
    obtain ⟨e, he⟩ := (resultOf_ok_or_error s.rOp s).resolve_left hne
    rw [he]
    exact ⟨rfl, rfl, rfl, rfl⟩

end Sys2Proof.Machine
end

section
/-! PROOF. Resets and the host's moves: a reset due is taken in every state (R210, R211), and a host move leaves the engine
alone (R226). -/

namespace Sys2Proof.Machine

variable {s : State}

/-! ### The reset (R210, R211) -/

/-- Settles O41: a reset due is the step, whatever else is enabled. -/
theorem resetStep : Obligations.ResetStep := by
  intro s rest h
  refine ⟨s.inQ.length, ?_⟩
  rw [step_rst ((rstNow_iff s).mpr ⟨rest, h⟩), tRst, h]
  rfl

/-- Settles O43: `rst` holds every pin at 0, and after the reset the engine is idle. -/
theorem pinsAroundReset : Obligations.PinsAroundReset := by
  intro s hr
  refine ⟨by simp [cmdReady, inReady, outValid, resValid, hr], tRst s, step_rst hr, fun hr' => ?_⟩
  obtain ⟨hcmd, hin, hout, hres⟩ := enabled_of_idle (tRst_busy s)
  simp [cmdReady, inReady, outValid, resValid, hr', hcmd, hin, hout, hres]

/-! ### What a host move leaves unchanged (R57, R226) -/

/-- A host move writes the host's side of the channels and the plan of resets only. -/
theorem hostMove_frame (m : HostMove) (s : State) :
    hostMove m s = { s with
      cmdQ := (hostMove m s).cmdQ, inQ := (hostMove m s).inQ, inLeft := (hostMove m s).inLeft
      outReady := (hostMove m s).outReady, resReady := (hostMove m s).resReady
      rstPlan := (hostMove m s).rstPlan } := by
  cases m <;> rfl

@[simp] theorem enCmd_hostMove (m : HostMove) (s : State) : enCmd (hostMove m s) = enCmd s := by
  rw [hostMove_frame]; rfl
@[simp] theorem enIn_hostMove (m : HostMove) (s : State) : enIn (hostMove m s) = enIn s := by
  rw [hostMove_frame]; rfl
@[simp] theorem enOut_hostMove (m : HostMove) (s : State) : enOut (hostMove m s) = enOut s := by
  rw [hostMove_frame]; rfl
@[simp] theorem enRes_hostMove (m : HostMove) (s : State) : enRes (hostMove m s) = enRes s := by
  rw [hostMove_frame]; rfl
@[simp] theorem hostMove_rOp (m : HostMove) (s : State) : (hostMove m s).rOp = s.rOp := by
  rw [hostMove_frame]
@[simp] theorem hostMove_hold (m : HostMove) (s : State) : (hostMove m s).hold = s.hold := by
  rw [hostMove_frame]
@[simp] theorem encByte_hostMove (m : HostMove) (s : State) : encByte (hostMove m s) = encByte s := by
  rw [hostMove_frame]; rfl
@[simp] theorem encLast_hostMove (m : HostMove) (s : State) : encLast (hostMove m s) = encLast s := by
  rw [hostMove_frame]; rfl
@[simp] theorem decLast_hostMove (m : HostMove) (s : State) : decLast (hostMove m s) = decLast s := by
  rw [hostMove_frame]; rfl
@[simp] theorem resultOf_hostMove (op : Op) (m : HostMove) (s : State) :
    resultOf op (hostMove m s) = resultOf op s := by
  rw [hostMove_frame]; cases op <;> rfl

/-- A host move that brings no reset now changes no output pin. -/
theorem pins_hostMove {m : HostMove} (hr : rstNow (hostMove m s) = rstNow s) :
    cmdReady (hostMove m s) = cmdReady s ∧ inReady (hostMove m s) = inReady s ∧
    outValid (hostMove m s) = outValid s ∧ resValid (hostMove m s) = resValid s ∧
    outPins (hostMove m s) = outPins s ∧ resPins (hostMove m s) = resPins s := by
  simp [cmdReady, inReady, outValid, resValid, outPins, resPins, hr]

/-- Command words wait behind those offered (R56). -/
theorem cmdQ_prefix_hostMove (m : HostMove) (s : State) : s.cmdQ <+: (hostMove m s).cmdQ := by
  cases m with
  | offer w => exact List.prefix_append ..
  | supply d | withdrawInput | takeOut r | takeRes r | planReset n => exact List.prefix_rfl

/-- No input byte is taken back but one left over at a reset (R57, U4). -/
theorem inQ_prefix_hostMove {m : HostMove} (h : m ≠ .withdrawInput ∨ s.inLeft = 0) :
    s.inQ <+: (hostMove m s).inQ := by
  cases m with
  | supply d => exact List.prefix_append ..
  | withdrawInput => rw [hostMove_withdrawInput_of_none s (h.resolve_left (· rfl))]
  | offer w | takeOut r | takeRes r | planReset n => exact List.prefix_rfl

/-- The input bytes that were not left over at a reset stay, whatever the move (R212). -/
theorem inQ_drop_infix_hostMove (m : HostMove) (s : State) : s.inQ.drop s.inLeft <:+: (hostMove m s).inQ := by
  by_cases hm : m = .withdrawInput
  · rw [hm]
    exact List.infix_rfl
  · exact (List.drop_suffix ..).isInfix.trans (inQ_prefix_hostMove (.inl hm)).isInfix

/-- Settles O53, by what each move writes. -/
theorem hostMovesLeaveTheEngineAlone : Obligations.HostMovesLeaveTheEngineAlone := fun m s =>
  ⟨hostMove_frame m s, pins_hostMove, cmdQ_prefix_hostMove m s, inQ_drop_infix_hostMove m s, inQ_prefix_hostMove, rfl⟩

end Sys2Proof.Machine
end

section
/-! PROOF. Words offered in addition wait (R224): a transfer that happens is the same transfer when more is offered and, as long
as no reset is due, under another plan of resets (R210). -/

namespace Sys2Proof.Machine

variable {s t : State} {c : Command} {op : Op} {ws : List Offer} {bs : List Byte} {p : List Nat}

/-! ### More offered, and another plan of resets -/

/-- `s` with the further words `ws` and bytes `bs` offered, and with the plan of resets `p` in place of its own. -/
def State.offering (s : State) (ws : List Offer) (bs : List Byte) (p : List Nat) : State :=
  { s with cmdQ := s.cmdQ ++ ws, inQ := s.inQ ++ bs, rstPlan := p }

@[simp] theorem State.offering_nil (s : State) (p : List Nat) : s.offering [] [] p = { s with rstPlan := p } := by
  simp [State.offering]

theorem State.elapse_offering (s : State) (ws : List Offer) (bs : List Byte) (p : List Nat) :
    (s.offering ws bs p).elapse = s.elapse.offering ws bs (p.modifyHead (· - 1)) := by
  rw [State.elapse_eq, State.elapse_eq]
  rfl

theorem inputOf_offering (op : Op) (s : State) (d : Byte) :
    inputOf op (s.offering ws bs p) d = (inputOf op s d).offering ws bs p := by
  cases op with
  | enc => simp only [inputOf, encIn, apply_ite (State.offering · ws bs p)]; rfl
  | dec => simp only [inputOf, decIn, apply_ite (State.offering · ws bs p)]; rfl
  | csum => rfl
  | vfy => rfl

theorem outputOf_offering (h : outputOf op s = .next t) :
    outputOf op (s.offering ws bs p) = .next (t.offering ws bs p) := by
  rcases outputOf_cases h with ⟨rfl, he, hi, ho, b, hbyte, rfl⟩ | ⟨rfl, rfl⟩
  · exact encOut_eq_next (s := s.offering ws bs p) he hi ho hbyte
  · rfl

theorem resultOf_offering (op : Op) (s : State) : resultOf op (s.offering ws bs p) = resultOf op s := by
  cases op <;> rfl

/-- A channel step that happens takes the first word or byte offered, or none, and does not look at the plan of resets. -/
theorem channelStep_offering (h : channelStep c (inputOf op) (outputOf op) (resultOf op) s = .next t) :
    channelStep c (inputOf op) (outputOf op) (resultOf op) (s.offering ws bs p) = .next (t.offering ws bs p) := by
  rcases channelStep_cases h with ⟨hb, rfl⟩ | ⟨hb, hc, hin, d, r, hq, rfl⟩ | ⟨hb, hc, hin, hout, hr, ho⟩ |
    ⟨hb, hc, hin, hout, hres, hr, rfl⟩
  · exact channelStep_idle (s := s.offering ws bs p) hb
  · have hq' : (s.offering ws bs p).inQ = d :: (r ++ bs) := congrArg (· ++ bs) hq
    rw [channelStep_in (s := s.offering ws bs p) hb hc hin d _ hq', inputOf_offering]
    rfl
  · rw [channelStep_out (s := s.offering ws bs p) hb hc hin hout hr]
    exact outputOf_offering ho
  · rw [channelStep_res (s := s.offering ws bs p) hb hc hin hout hres hr, resultOf_offering]
    rfl

/-- A transfer that happens is the same transfer when the host offers more, under every plan in which no reset is due. -/
theorem step_offering (hr : rstNow s = false) (hr' : rstNow (s.offering ws bs p) = false) (h : step s = .next t) :
    step (s.offering ws bs p) = .next (t.offering ws bs (p.modifyHead (· - 1))) := by
  rcases step_cases h with ⟨hrst, -⟩ | ⟨-, hb, w, r, hq, rfl⟩ | ⟨-, hb, hc⟩
  · simp [hr] at hrst
  · have hq' : (s.offering ws bs p).cmdQ = .command w :: (r ++ ws) := congrArg (· ++ ws) hq
    rw [step_idle_cons hr' hb _ _ hq', State.elapse_offering, decodeOffer, exec_toInstr,
      channelStep_idle (by simpa [State.offering] using hb)]
    rfl
  · rw [step_busy hr' hb, State.elapse_offering]
    exact channelStep_offering hc

/-! ### More offered (R224) -/

/-- One transfer is counted off the plan of resets (R210). -/
theorem step_rstPlan (hr : rstNow s = false) (h : step s = .next t) : t.rstPlan = s.rstPlan.modifyHead (· - 1) := by
  obtain ⟨x, hx⟩ := exists_stepTransfer h
  cases hx with
  | rst hrst => simp [hr] at hrst
  | cmd | inp | encOut | decOut | res => simp [State.elapse_eq]

/-- A transfer that happens is the same transfer when the host offers more. -/
theorem step_offering_more (hr : rstNow s = false) (h : step s = .next t) (ws : List Offer) (bs : List Byte) :
    step { s with cmdQ := s.cmdQ ++ ws, inQ := s.inQ ++ bs } =
      .next { t with cmdQ := t.cmdQ ++ ws, inQ := t.inQ ++ bs } := by
  have hmore := step_offering (ws := ws) (bs := bs) (p := s.rstPlan) hr hr h
  rw [← step_rstPlan hr h] at hmore
  exact hmore

/-- Settles O54: a reset looks at nothing offered, and a transfer takes the first of what is offered. -/
theorem earlyOffersWait : Obligations.EarlyOffersWait := by
  intro s t h
  cases hr : rstNow s with
  | true =>
    obtain rfl := Host.Outcome.next.inj ((step_rst hr).symm.trans h)
    refine ⟨fun w => step_rst hr, fun d => (step_rst (s := hostMove (.supply d) s) hr).trans ?_⟩
    simp [hostMove, tRst]
  | false =>
    refine ⟨fun w => ?_, fun d => ?_⟩
    · simpa [hostMove] using step_offering_more hr h [.command w] []
    · simpa [hostMove] using step_offering_more hr h [] [d]

end Sys2Proof.Machine
end

section
/-! PROOF. A program offered in advance (R215): what is observed of one operation's transfers, and the run of a program operation
by operation. -/

namespace Sys2Proof.Machine

variable {s t : State} {D : List Transfer}

/-! ### What is observed of an operation (R215) -/

/-- A transfer of a byte, in or out. -/
def CarriesByte (x : Transfer) : Prop := (∃ d, x = .inp d) ∨ ∃ b last, x = .out b last

/-- Between its `T_CMD` and its `T_RES` an operation transfers bytes only. -/
theorem carriesByte_of_mem_dataTransfers (cfg : Config) (c : Command) (B : List Byte) :
    ∀ x ∈ dataTransfers cfg c B, CarriesByte x := by
  intro x h
  rcases dataTransfers_shape cfg c B with hD | ⟨H, -, hD⟩
  · rw [hD, List.mem_append, List.mem_map, List.mem_map] at h
    rcases h with ⟨d, -, rfl⟩ | ⟨o, -, rfl⟩
    · exact .inl ⟨d, rfl⟩
    · exact .inr ⟨o.1, o.2, rfl⟩
  · rw [hD, List.mem_append, List.mem_map, List.mem_flatMap] at h
    rcases h with ⟨d, -, rfl⟩ | ⟨o, -, h⟩
    · exact .inl ⟨d, rfl⟩
    · rcases List.mem_pair.mp h with rfl | rfl
      · exact .inl ⟨o.1, rfl⟩
      · exact .inr ⟨o.1, o.2, rfl⟩

/-- Bytes transferred in the course of an operation add the OUT bytes to what is observed of it. -/
theorem observe_bytes (hD : ∀ x ∈ D, CarriesByte x) (bs : List Byte) (ts : List Transfer) :
    observe (some bs) (D ++ ts) = observe (some (bs ++ (outWords D).map Prod.fst)) ts := by
  induction D generalizing bs with
  | nil => simp [outWords]
  | cons x D ih =>
    obtain ⟨hx, hbytes⟩ := List.forall_mem_cons.mp hD
    rcases hx with ⟨d, rfl⟩ | ⟨b, last, rfl⟩
    · exact ih hbytes bs
    · refine (ih hbytes (bs ++ [b])).trans ?_
      rw [List.append_assoc]
      rfl

/-- What is observed of a whole operation is its output and its result. -/
theorem observe_operationTransfers (cfg : Config) (c : Command) (B : List Byte) (ts : List Transfer) :
    observe none (operationTransfers cfg c B ++ ts) =
      ((operation cfg c B).1, some (operation cfg c B).2) :: observe none ts := by
  obtain ⟨-, hbetween, -⟩ := words_between c (dataTransfers cfg c B) (operation cfg c B).2
  obtain ⟨-, hout, -⟩ := words_of_operation cfg c B
  have hwords : outWords (dataTransfers cfg c B) = markLast (operation cfg c B).1 := hbetween.symm.trans hout
  have hobs := observe_bytes (carriesByte_of_mem_dataTransfers cfg c B) [] (.res (operation cfg c B).2 :: ts)
  rw [hwords, List.nil_append, markLast_bytes] at hobs
  rw [operationTransfers, List.append_assoc, List.append_assoc]
  exact hobs

/-! ### A program (R62(a), R215) -/

/-- A run in two parts: the second goes on where the first ends. -/
theorem core_run_add {m : Nat} (h : Host.Core.run core m s = .next t) (n : Nat) :
    Host.Core.run core (m + n) s = Host.Core.run core n t := by
  simp only [core_run_eq_runEvents, List.replicate_add] at h ⊢
  exact runEvents_append _ _ s t h

/-- Settles O58, by induction on the program: its first operation runs to its end (`oneRunPerOperation`) and leaves the engine
idle with the rest of the program offered. -/
theorem programObservation : Obligations.ProgramObservation := by
  intro p rest q s hfed hb hq hin hout hres hp
  induction p generalizing s with
  | nil => exact ⟨s, [], rfl, hb, by simp, rfl, hq, hin⟩
  | cons x p ih =>
    obtain ⟨hx, hfed⟩ := List.forall_mem_cons.mp hfed
    have hin' : s.inQ = x.2 ++ (Program.input p ++ rest) := hin.trans (List.append_assoc ..)
    obtain ⟨u, hrun, htrace, hub, huq, huin, hcfg, huout, hures, hup⟩ :=
      oneRunPerOperation x.1 x.2 _ _ s hb hq hin' hx hout hres hp
    obtain ⟨t, ts, hrun', htb, htrace', hobs, htq, htin⟩ := ih u hfed hub huq huin huout hures hup
    rw [hcfg] at hrun' hobs
    refine ⟨t, operationTransfers s.cfg x.1 x.2 ++ ts, (core_run_add hrun _).trans hrun', htb, ?_, ?_, htq, htin⟩
    · rw [htrace', htrace, List.append_assoc]
    · rw [observe_operationTransfers, hobs]
      rfl

end Sys2Proof.Machine
end

section
/-! PROOF. The run of an operation that a planned reset aborts (R212): its first transfers are those of the run without the
reset, and the reset then ends it. -/

namespace Sys2Proof.Machine

variable {cfg : Config} {c : Command} {q : List Offer} {rest B : List Byte} {s t : State} {x : Transfer}
  {ts : List Transfer} {n : Nat}

/-! ### A part of a performance -/

/-- A transfer other than a `T_CMD` takes no command word (R57). -/
theorem StepTransfer.cmdQ (h : StepTransfer s t x) (hx : ∀ c, x ≠ .cmd c) : t.cmdQ = s.cmdQ := by
  cases h with
  | cmd => exact absurd rfl (hx _)
  | rst | inp | encOut | decOut | res => simp

/-- A transfer takes its own byte from those offered on IN, if it carries one (R57). -/
theorem StepTransfer.inQ (h : StepTransfer s t x) : s.inQ = inBytes [x] ++ t.inQ := by
  cases h with
  | inp _ _ hq => simp [hq, inBytes]
  | rst | cmd | encOut | decOut | res => simp [inBytes]

/-- A performance without a `T_CMD` begins with the command words offered that it ends with. -/
theorem Performs.cmdQ (h : Performs q rest ts s) (hts : ∀ c, .cmd c ∉ ts) : s.cmdQ = q := by
  induction h with
  | idle _ hq _ => exact hq
  | step hstep htrace _ ih =>
    have hx := (stepTransfer_of_trace hstep htrace).cmdQ fun c hc => hts c (hc ▸ List.mem_cons_self)
    rw [← hx]
    exact ih fun c hc => hts c (List.mem_cons_of_mem _ hc)

/-- A performance consumes the bytes its transfers carry, in order. -/
theorem Performs.inQ (h : Performs q rest ts s) : s.inQ = inBytes ts ++ rest := by
  induction h with
  | idle _ _ hin => exact hin
  | step hstep htrace _ ih =>
    rw [(stepTransfer_of_trace hstep htrace).inQ, ih, ← List.append_assoc, ← inBytes_append]
    rfl

/-- Under a plan whose one reset comes after `n` transfers, the first `n` of a performance are made as they are without it,
and the reset is then due. -/
theorem Performs.run_planned (h : Performs q rest ts s) (hp : s.rstPlan = []) (hn : n ≤ ts.length) :
    ∃ t, runEvents (List.replicate n .step) { s with rstPlan := [n] } = .next { t with rstPlan := [0] } ∧
      t.trace = s.trace ++ ts.take n ∧ Performs q rest (ts.drop n) t := by
  induction n generalizing s ts with
  | zero => exact ⟨s, rfl, by simp, h⟩
  | succ n ih =>
    cases h with
    | idle => simp at hn
    | @step _ u x ts hstep htrace hnext =>
      have hplan : Machine.step { s with rstPlan := [n + 1] } = .next { u with rstPlan := [n] } := by
        simpa using step_offering (ws := []) (bs := []) (p := [n + 1]) (rstNow_of_nil hp) rfl hstep
      obtain ⟨t, hrun, ht, hleft⟩ := ih hnext ((step_steady hstep).rstPlan hp) (Nat.le_of_succ_le_succ hn)
      refine ⟨t, ?_, by simp [ht, htrace], hleft⟩
      rw [List.replicate_succ, runEvents_step _ _ _ hplan, hrun]

/-- A performance aborted by a reset after its first `n` transfers: what these have not consumed stays offered. -/
theorem Performs.run_aborted (h : Performs q rest ts { s with rstPlan := [] }) (hp : s.rstPlan = [n])
    (hn : n ≤ ts.length) (hcmd : ∀ c, .cmd c ∉ ts.drop n) :
    ∃ t, Host.Core.run core (n + 1) s = .next t ∧ t.trace = s.trace ++ ts.take n ++ [.rst] ∧ t.busy = false ∧
      s.inQ = inBytes (ts.take n) ++ t.inQ ∧ t.cmdQ = q := by
  obtain ⟨t, hrun, ht, hleft⟩ := h.run_planned rfl hn
  have hs : { s with rstPlan := [n] } = s := by rw [← hp]
  rw [← core_run_eq_runEvents] at hrun
  change Host.Core.run core n { s with rstPlan := [n] } = _ at hrun
  rw [hs] at hrun
  have hin : s.inQ = inBytes (ts.take n) ++ t.inQ := by
    rw [hleft.inQ, ← List.append_assoc, ← inBytes_append, List.take_append_drop]
    exact h.inQ
  exact ⟨tRst { t with rstPlan := [0] }, core_run_add hrun 1, congrArg (· ++ [Transfer.rst]) ht, rfl, hin,
    hleft.cmdQ hcmd⟩

/-! ### The first transfers of an operation -/

/-- An operation short of its end: its `T_CMD` and then bytes. -/
theorem operationTransfers_take (hn : 0 < n) (hlt : n < (operationTransfers cfg c B).length) :
    ∃ D, (operationTransfers cfg c B).take n = .cmd c :: D ∧ ∀ x ∈ D, CarriesByte x := by
  obtain ⟨n, rfl⟩ := Nat.exists_eq_succ_of_ne_zero hn.ne'
  refine ⟨(dataTransfers cfg c B).take n, ?_, fun x hx => ?_⟩
  · simp only [operationTransfers, List.length_append, List.length_singleton] at hlt
    rw [operationTransfers, List.append_assoc, List.singleton_append, List.take_succ_cons,
      List.take_append_of_le_length (by omega)]
  · exact carriesByte_of_mem_dataTransfers cfg c B x (List.mem_of_mem_take hx)

/-- After its `T_CMD` an operation accepts no command (R29). -/
theorem cmd_notMem_operationTransfers_drop (hn : 0 < n) (c' : Command) :
    .cmd c' ∉ (operationTransfers cfg c B).drop n := by
  obtain ⟨n, rfl⟩ := Nat.exists_eq_succ_of_ne_zero hn.ne'
  intro hmem
  rw [operationTransfers, List.append_assoc, List.singleton_append, List.drop_succ_cons] at hmem
  rcases List.mem_append.mp (List.mem_of_mem_drop hmem) with h | h
  · rcases carriesByte_of_mem_dataTransfers cfg c B _ h with ⟨d, hd⟩ | ⟨b, last, hb⟩
    · cases hd
    · cases hb
  · simp at h

/-- A `T_CMD` and bytes give no result. -/
theorem resWords_cmd_bytes {D : List Transfer} (hD : ∀ x ∈ D, CarriesByte x) : resWords (.cmd c :: D) = [] := by
  change resWords D = []
  rw [resWords, List.filterMap_eq_nil_iff]
  intro x hx
  rcases hD x hx with ⟨d, rfl⟩ | ⟨b, last, rfl⟩ <;> rfl

/-- Settles O59: the run is that of the operation without the reset (`performs_operation`) up to the reset, before which it
has transferred its command and bytes only. -/
theorem resetAbortsAtAnyPoint : Obligations.ResetAbortsAtAnyPoint := by
  intro c B rest q s n hb hq hin hB hout hres hp hn hlt
  have hall : Performs q rest (operationTransfers s.cfg c B) { s with rstPlan := [] } :=
    performs_operation (s := { s with rstPlan := [] }) hb hq hin hB hout hres rfl
  obtain ⟨t, hrun, htrace, hidle, hleft, htq⟩ :=
    hall.run_aborted hp hlt.le (cmd_notMem_operationTransfers_drop hn)
  obtain ⟨D, hD, hbytes⟩ := operationTransfers_take hn hlt
  refine ⟨t, hrun, htrace, hidle, ?_, ?_, ?_, htq⟩
  · rw [hD]
    exact resWords_cmd_bytes hbytes
  · rw [hD]
    exact observe_bytes hbytes [] [.rst]
  · rw [← hin, hleft, List.drop_left]

end Sys2Proof.Machine
end
